-- ==== Sys2Proof/Word.lean ====
section
/-! DEFINITION. The bit-vector types of the BitOps unit: the widths of rule R5 and of the port lists of rules R24 and R25. -/

namespace Sys2Proof

/-- A Word: "a 64-bit unsigned integer value" (R5 `XLEN`, R7). -/
abbrev Word := BitVec 64

/-- One byte of the `buildLong` operand (R24, lanes of 8 bits). -/
abbrev Byte := BitVec 8

/-- An index port `i0`, `i1`, `i2`: 32 bits, read as two's complement (R5 `IDXW`, R65). -/
abbrev Idx := BitVec 32

/-- The operation select port `op`: 4 bits (R5 `OPW`, R63). -/
abbrev Sel := BitVec 4

/-- The one-bit output port `ill` (R25). -/
abbrev Bit := BitVec 1

/-- The eight byte lanes `by[0]` .. `by[7]` (R40): a vector of exactly 8 bytes by type, as R144 asks. -/
abbrev Lanes := Vector Byte 8

/-- A command written as one string of bits, `CMD[291:0]` (R60). -/
abbrev Bundle := BitVec 292

end Sys2Proof
end

