-- ==== Sys2Proof/Config.lean ====
section
/-! DEFINITION. The parameters of the unit (rule R5, decision D5). Nothing else is left to an implementation: the spec has no free value (93_implementation_defined.md U1 to U9). -/

namespace Sys2Proof

/-- `XLEN`, the width of a Word (R5). -/
abbrev Config.xlen : Nat := 64

/-- `NBYTES`, the bytes of a Word and of the `buildLong` operand (R5). -/
abbrev Config.nbytes : Nat := 8

/-- `IDXW`, the width of an index operand port (R5, decision D3). -/
abbrev Config.idxw : Nat := 32

/-- The width of the bundle `CMD` (R60, decision D17). -/
abbrev Config.cmdw : Nat := 292

/-- DESIGN CHOICE (unsafe, notes/assumptions/3.md): the parameter 93_implementation_defined.md U3 names for a model that
follows decision D5 literally, "reserved codes evaluate to zero with ill". It is set: a reserved select value drives
`r = word(0)`, `ill = 1` (R66). Were it unset, the six reserved selects would be refused by name. -/
def Config.reservedEvaluates : Bool := true

end Sys2Proof
end

