-- ==== Sys2Proof/Syntax.lean ====
section
/-! DEFINITION. What the unit is given: the command on its input ports (R24, R60), the instruction a command selects (one constructor per row of spec/opcode_table.json), and the written form of a command (R69). -/

namespace Sys2Proof

/-- A command: one value on each input port (R24, R60). `lanes[k]` is the port `by[k]`. -/
structure Command where
  op : Sel
  a : Word
  b : Word
  i0 : Idx
  i1 : Idx
  i2 : Idx
  lanes : Lanes
  deriving DecidableEq, Repr

/-- The instructions: the ten operations of R2 with the operands their format lists (R61), under the document's argument
names, and the six reserved select values of R66, which read no operand. An operand is a bit vector of its port's width,
so every value of this type is well formed and every index value is legal input (R67, 90_conflicts.md C4). -/
inductive Instr where
  | buildLong (bytes : Lanes)
  | getByte (source : Word) (byteNum : Idx)
  | setByte (source : Word) (byteNum : Idx)
  | getBits (source : Word) (low high : Idx)
  | setBits (source : Word) (low high : Idx)
  | clearBits (source : Word) (low high : Idx)
  | sign (source : Word)
  | addOverflow (op1 op2 : Word)
  | subOverflow (op1 op2 : Word)
  | copyBits (source dest : Word) (srcLow dstLow length : Idx)
  | reserved0x3
  | reserved0x7
  | reserved0xB
  | reserved0xD
  | reserved0xE
  | reserved0xF
  deriving DecidableEq, Repr

/-- The name of an instruction's row in spec/opcode_table.json. -/
def Instr.mnemonic : Instr → String
  | .buildLong _ => "buildLong"
  | .getByte _ _ => "getByte"
  | .setByte _ _ => "setByte"
  | .getBits _ _ _ => "getBits"
  | .setBits _ _ _ => "setBits"
  | .clearBits _ _ _ => "clearBits"
  | .sign _ => "sign"
  | .addOverflow _ _ => "addOverflow"
  | .subOverflow _ _ => "subOverflow"
  | .copyBits _ _ _ _ _ => "copyBits"
  | .reserved0x3 => "reserved_0x3"
  | .reserved0x7 => "reserved_0x7"
  | .reserved0xB => "reserved_0xB"
  | .reserved0xD => "reserved_0xD"
  | .reserved0xE => "reserved_0xE"
  | .reserved0xF => "reserved_0xF"

/-- The select value of an instruction (the table of R63). -/
def Instr.select : Instr → Sel
  | .buildLong _ => 0x0#4
  | .getByte _ _ => 0x1#4
  | .setByte _ _ => 0x2#4
  | .reserved0x3 => 0x3#4
  | .getBits _ _ _ => 0x4#4
  | .setBits _ _ _ => 0x5#4
  | .clearBits _ _ _ => 0x6#4
  | .reserved0x7 => 0x7#4
  | .sign _ => 0x8#4
  | .addOverflow _ _ => 0x9#4
  | .subOverflow _ _ => 0xA#4
  | .reserved0xB => 0xB#4
  | .copyBits _ _ _ _ _ => 0xC#4
  | .reserved0xD => 0xD#4
  | .reserved0xE => 0xE#4
  | .reserved0xF => 0xF#4

/-- Why the numeric front of the decoder refuses a number: it has a bit above bit 291, so it is no command (R60, R68). -/
inductive DecodeReject where
  | widerThanCommand
  deriving DecidableEq, Repr

/-! ### The written form (R69, R70) -/

/-- The ten operation names of R63. -/
inductive Mnemonic where
  | buildLong | getByte | setByte | getBits | setBits | clearBits | sign | addOverflow | subOverflow | copyBits
  deriving DecidableEq, Repr

/-- What kind of value an argument position takes (R61): a Word, an index, or the list of eight bytes. -/
inductive ArgKind where
  | word | index | bytes
  deriving DecidableEq, Repr

/-- An argument list of the document, in the document's order (the formats of R61). -/
def Mnemonic.shape : Mnemonic → List ArgKind
  | .buildLong => [.bytes]
  | .getByte | .setByte => [.word, .index]
  | .getBits | .setBits | .clearBits => [.word, .index, .index]
  | .sign => [.word]
  | .addOverflow | .subOverflow => [.word, .word]
  | .copyBits => [.word, .word, .index, .index, .index]

/-- An argument as it is written (R69): a number in hexadecimal, a number in decimal, or a bracketed list. -/
inductive Arg where
  | hex (n : Nat)
  | dec (n : Int)
  | list (bytes : List Nat)
  deriving DecidableEq, Repr

/-- A written command `mnemonic(arg1, arg2, ...)` (R69). -/
structure Call where
  name : String
  args : List Arg
  deriving DecidableEq, Repr

/-- Why the assembler refuses a written command. All are safe: no command results. -/
inductive CallReject where
  | unknownName
  | wrongArgumentCount
  | notAWord
  | notAnIndex
  | notEightBytes
  deriving DecidableEq, Repr

end Sys2Proof
end

