-- ==== Sys2Proof/WellFormed.lean ====
section
/-! DEFINITION. The checks on a written command (R69, R70, R144). An `Instr` needs none: its operands are bit vectors of their ports' widths, and every value of them is legal (R67). -/

namespace Sys2Proof

/-- The names a command may be written with: the ten of R63, case-sensitive, and the two aliases of R70. `mask` is not a
command (R70), and a reserved select value has no written form. -/
def Mnemonic.ofName (name : String) : Option Mnemonic :=
  if name = "buildLong" then some .buildLong
  else if name = "getByte" then some .getByte
  else if name = "setByte" then some .setByte
  else if name = "getBits" then some .getBits
  else if name = "setBits" then some .setBits
  else if name = "clearBits" then some .clearBits
  else if name = "sign" then some .sign
  else if name = "isNegative" then some .sign
  else if name = "addOverflow" then some .addOverflow
  else if name = "subOverflow" then some .subOverflow
  else if name = "subtractOverflow" then some .subOverflow
  else if name = "copyBits" then some .copyBits
  else none

/-- A Word argument is written in hexadecimal (R69) and fits 64 bits. DESIGN CHOICE (safe, notes/assumptions/10.md): it is judged
by its value, so leading zeros past 16 digits are accepted. -/
def Arg.isWord : Arg → Bool
  | .hex n => decide (n < 2 ^ Config.xlen)
  | .dec _ => false
  | .list _ => false

/-- An index argument is written in decimal or hexadecimal (R69) and its value is one a port can carry (R65). -/
def Arg.isIndex : Arg → Bool
  | .hex n => decide (n < 2 ^ (Config.idxw - 1))
  | .dec n => decide (-(2 ^ (Config.idxw - 1) : Int) ≤ n ∧ n < 2 ^ (Config.idxw - 1))
  | .list _ => false

/-- The argument of `buildLong` is a list of exactly eight byte values (R69, R144: no padding, no truncation). -/
def Arg.isBytes : Arg → Bool
  | .list bs => decide (bs.length = Config.nbytes) && bs.all fun b => decide (b < 2 ^ 8)
  | .hex _ => false
  | .dec _ => false

/-- An argument suits its position. -/
def Arg.suits (arg : Arg) : ArgKind → Bool
  | .word => arg.isWord
  | .index => arg.isIndex
  | .bytes => arg.isBytes

/-- The arguments suit an argument list, position by position, with none missing and none left over. -/
def Arg.allSuit : List Arg → List ArgKind → Bool
  | [], [] => true
  | arg :: args, kind :: kinds => arg.suits kind && Arg.allSuit args kinds
  | [], _ :: _ => false
  | _ :: _, [] => false

/-- A written command is well formed: a known name with the arguments its operation takes. -/
def Call.wellFormed (c : Call) : Bool :=
  match Mnemonic.ofName c.name with
  | none => false
  | some m => Arg.allSuit c.args m.shape

end Sys2Proof
end

