-- ==== Sys2Proof/Decode.lean ====
section
/-! DEFINITION. The bundle of R60, the decoder of R63 and R64 (total: every one of the 2^292 bundles selects one instruction), the numeric front that refuses by name what is wider than a command, and after them the encoder. -/

namespace Sys2Proof

/-! ### The bundle (R60) -/

/-- Bits 63:0 of the bundle: `by[7] || by[6] || ... || by[0]` (R60), lane `k` at bits `8k+7` to `8k`. -/
def laneWord (lanes : Lanes) : BitVec 64 :=
  lanes[7] ++ lanes[6] ++ lanes[5] ++ lanes[4] ++ lanes[3] ++ lanes[2] ++ lanes[1] ++ lanes[0]

/-- The eight lanes that bits 63:0 of a bundle carry (R60). -/
def lanesOfWord (w : BitVec 64) : Lanes :=
  #v[w.extractLsb' 0 8, w.extractLsb' 8 8, w.extractLsb' 16 8, w.extractLsb' 24 8,
     w.extractLsb' 32 8, w.extractLsb' 40 8, w.extractLsb' 48 8, w.extractLsb' 56 8]

/-- `CMD = op || i2 || i1 || i0 || b || a || by[7..0]` (R60). -/
def Command.toBundle (c : Command) : Bundle :=
  c.op ++ c.i2 ++ c.i1 ++ c.i0 ++ c.b ++ c.a ++ laneWord c.lanes

/-- The ports a bundle puts its bits on (the table of R60). -/
def Command.ofBundle (w : Bundle) : Command where
  op := w.extractLsb' 288 4
  i2 := w.extractLsb' 256 32
  i1 := w.extractLsb' 224 32
  i0 := w.extractLsb' 192 32
  b := w.extractLsb' 128 64
  a := w.extractLsb' 64 64
  lanes := lanesOfWord (w.extractLsb' 0 64)

theorem lt_of_shiftRight_eq_zero {n w : Nat} (h : w >>> n = 0) : w < 2 ^ n := by
  rw [Nat.shiftRight_eq_div_pow, Nat.div_eq_zero_iff] at h
  have := Nat.two_pow_pos n
  omega

/-- The bundle whose bits are the low 292 bits of a number. (The first case is the same value without a division by 2^292.) -/
def bundleOfNat (w : Nat) : Bundle :=
  if h : w >>> 292 = 0 then BitVec.ofNatLT w (@lt_of_shiftRight_eq_zero 292 w h) else BitVec.ofNat 292 w

/-! ### The decoder (R61, R63, R64) -/

/-- The instruction a command selects, by `op` alone: the sixteen rows of R63 in binary, no wildcard, each reading the
ports of its format (R61) as R64 assigns them. A port the format does not list is not read (R62). -/
def decode (c : Command) : Instr :=
  match c.op[3], c.op[2], c.op[1], c.op[0] with
  | false, false, false, false => .buildLong c.lanes
  | false, false, false, true => .getByte c.a c.i0
  | false, false, true, false => .setByte c.a c.i0
  | false, false, true, true => .reserved0x3
  | false, true, false, false => .getBits c.a c.i0 c.i1
  | false, true, false, true => .setBits c.a c.i0 c.i1
  | false, true, true, false => .clearBits c.a c.i0 c.i1
  | false, true, true, true => .reserved0x7
  | true, false, false, false => .sign c.a
  | true, false, false, true => .addOverflow c.a c.b
  | true, false, true, false => .subOverflow c.a c.b
  | true, false, true, true => .reserved0xB
  | true, true, false, false => .copyBits c.a c.b c.i0 c.i1 c.i2
  | true, true, false, true => .reserved0xD
  | true, true, true, false => .reserved0xE
  | true, true, true, true => .reserved0xF

/-- The decoder on a number written in binary as `CMD` is. DESIGN CHOICE (safe, notes/assumptions/6.md): a number with a bit
above bit 291 is no command (R60 gives 292 bits, R68 one length) and is refused by name. -/
def decodeNumber (w : Nat) : Except DecodeReject Instr :=
  if w >>> Config.cmdw = 0 then .ok (decode (Command.ofBundle (bundleOfNat w))) else .error .widerThanCommand

/-- The low `nbits` bits of a number. DESIGN CHOICE (unsafe below 292 bits, notes/assumptions/15.md): a bit string shorter than
`CMD` carries 0 on the bits above it; R60 and R68 give one length and are silent on a shorter one. -/
def lowBits (nbits w : Nat) : Nat :=
  if w >>> nbits = 0 then w else w % 2 ^ nbits

/-- The instruction the decoder reads from the low `nbits` bits of `w`, bit 0 of `w` being `CMD[0]` (the numbering of
spec/opcode_table.json, whose match and mask are numbers over `CMD`). -/
def decodeTableWord (nbits w : Nat) : Option Instr :=
  (decodeNumber (lowBits nbits w)).toOption

/-! ### The encoder (R62, R64) -/

/-- The command with every port 0: what the canonical encoding carries on unused ports (R62). -/
def Command.zero : Command where
  op := 0#4
  a := 0#64
  b := 0#64
  i0 := 0#32
  i1 := 0#32
  i2 := 0#32
  lanes := #v[0#8, 0#8, 0#8, 0#8, 0#8, 0#8, 0#8, 0#8]

/-- The canonical command of an instruction: each argument on its port (R64), 0 on every unused port (R62). -/
def place (i : Instr) : Command :=
  match i with
  | .buildLong bytes => { Command.zero with op := 0x0#4, lanes := bytes }
  | .getByte source byteNum => { Command.zero with op := 0x1#4, a := source, i0 := byteNum }
  | .setByte source byteNum => { Command.zero with op := 0x2#4, a := source, i0 := byteNum }
  | .getBits source low high => { Command.zero with op := 0x4#4, a := source, i0 := low, i1 := high }
  | .setBits source low high => { Command.zero with op := 0x5#4, a := source, i0 := low, i1 := high }
  | .clearBits source low high => { Command.zero with op := 0x6#4, a := source, i0 := low, i1 := high }
  | .sign source => { Command.zero with op := 0x8#4, a := source }
  | .addOverflow op1 op2 => { Command.zero with op := 0x9#4, a := op1, b := op2 }
  | .subOverflow op1 op2 => { Command.zero with op := 0xA#4, a := op1, b := op2 }
  | .copyBits source dest srcLow dstLow length =>
    { Command.zero with op := 0xC#4, a := source, b := dest, i0 := srcLow, i1 := dstLow, i2 := length }
  | .reserved0x3 => { Command.zero with op := 0x3#4 }
  | .reserved0x7 => { Command.zero with op := 0x7#4 }
  | .reserved0xB => { Command.zero with op := 0xB#4 }
  | .reserved0xD => { Command.zero with op := 0xD#4 }
  | .reserved0xE => { Command.zero with op := 0xE#4 }
  | .reserved0xF => { Command.zero with op := 0xF#4 }

/-- The canonical encoding of an instruction as one bundle (R60, R62). -/
def encode (i : Instr) : Bundle :=
  (place i).toBundle

end Sys2Proof
end

