-- ==== Sys2Proof/Machine/State.lean ====
section
/-! DEFINITION. What a state of the machine holds, the reasons a step can stop, and the values at reset. -/

namespace Sys2Proof.Machine

/-- What an evaluation gives on the output ports `r` and `ill` (R25): one `(r, ill)` pair. -/
structure Output where
  r : Word
  ill : Bit
  deriving DecidableEq, Repr

/-- The unit's own state: "the unit type (one value)" (R21). It has no register, no program counter, no flag, no memory and
no hidden buffer (R20 to R23, R41). -/
abbrev UnitState := Unit

/-- The unit in its environment. The unit keeps nothing; the host drives the input ports (R24, R152) and keeps the pairs it was
given (R163). The output ports are no field: at every moment they are `State.output`, the evaluation of the input ports (R28,
R164). DESIGN CHOICE (safe, notes/assumptions/1.md): the environment's side stands in State beside the unit's. -/
structure State where
  /-- The state of the unit (R21). -/
  unit : UnitState
  /-- What the host drives on the input ports `op`, `a`, `b`, `i0`, `i1`, `i2`, `by[0..7]` (R24). -/
  ports : Command
  /-- The host's own record, which no evaluation reads: "The run's result is the list of `(r, ill)` pairs" (R163), oldest
  first. -/
  results : List Output
  deriving DecidableEq, Repr

/-- The reasons a step can fault: none. "The complete table of exception causes is empty" (R140), so this type has no value
and no meaning can raise one. -/
inductive Fault where
  deriving DecidableEq, Repr

/-- The reasons a step can be refused. -/
inductive Refusal where
  /-- Raised by an arm of `exec` whose instruction has no meaning yet. No arm of this model raises it. Safe. -/
  | notModelled (mnemonic : String)
  /-- Raised by the six reserved selects if `Config.reservedEvaluates` is unset (93_implementation_defined.md U3). It is
  set, so none raises it. Safe. -/
  | reservedSelect (op : Sel)
  deriving DecidableEq, Repr

/-- Reset. The unit has no state to give a reset value to (R28) and no reset input (R160), and no run has begun, so the host's
record is empty (R163). DESIGN CHOICE (unsafe, notes/assumptions/2.md): the host's input ports carry 0. -/
def State.reset : State where
  unit := ()
  ports := Command.zero
  results := []

end Sys2Proof.Machine
end

