-- ==== Sys2Proof/Machine/Operands.lean ====
section
/-! DEFINITION. How an operand on a port is read: an index (R65), a signed Word (R7, R10), the byte lanes (R42). There is no addressing mode (R54) and no other operand form (R61). -/

namespace Sys2Proof.Machine

/-- `int(i)`: the signed value of an index port, used as it stands: not scaled, not truncated, not wrapped (R7, R65). -/
abbrev indexValue (i : Idx) : Int :=
  i.toInt

/-- `s(w)`: the two's-complement value of a Word (R7, R10). PRESUMED (safe, notes/assumptions/7.md): the formula of the term
is the spec's G1, from general knowledge. -/
abbrev signedValue (w : Word) : Int :=
  w.toInt

/-- `MemRead(addr, n) = by[addr+n-1] || ... || by[addr]` (R42): little-endian, and defined only inside the eight lanes. -/
def memRead (lanes : Lanes) (addr : Nat) : (n : Nat) → addr + n ≤ 8 → BitVec (8 * n)
  | 0, _ => 0#0
  | n + 1, h => (lanes[addr + n] ++ memRead lanes addr n (by omega)).cast (by omega)

end Sys2Proof.Machine
end

