-- ==== Sys2Proof/Machine/Ops.lean ====
section
/-! DEFINITION. The operations the meanings share: slices and masks of a Word (R7 to R9), and answering an evaluation (R25, R26, R66). The unit has no memory and no register to read or write (R20, R41), and no exception to take or to return from (R140, R148), so there is no operation for those. -/

namespace Sys2Proof.Machine

/-- `w[hi:lo]` for `lo <= hi <= 63` (R7). -/
def slice (w : Word) (hi lo : Nat) : BitVec (hi - lo + 1) :=
  w.extractLsb hi lo

/-- `zext_64(v)`: zero bits added above `v` to make a Word (R7, R54). -/
def zext64 {n : Nat} (v : BitVec n) : Word :=
  v.setWidth 64

/-- `validRange(lo, hi)`: an explicit comparison of integers (R8, R93, R168). -/
abbrev validRange (lo hi : Int) : Prop :=
  0 ≤ lo ∧ lo ≤ hi ∧ hi ≤ 63

/-- The validity test of a byte index, on the index itself (R81, R82). -/
abbrev validByte (n : Int) : Prop :=
  0 ≤ n ∧ n ≤ 7

/-- `mask(lo, hi) = word(2^(hi+1) - 2^lo)`, over unbounded numbers, so no shift by 64 occurs (R9, R167). -/
def mask (lo hi : Nat) : Word :=
  BitVec.ofNat 64 (2 ^ (hi + 1) - 2 ^ lo)

/-- `x << k` for `0 <= k <= 63` (R7): logical, zero fill. -/
def shiftLeft (x : Word) (k : Nat) : Word :=
  x <<< k

/-- An evaluation reads its command and "writes nothing but `(r, ill)`" (R26): the pair goes to the host's record (R163), and
no input port changes (R11, R43). -/
def State.record (o : Output) (s : State) : State :=
  { s with results := s.results ++ [o] }

/-- An assigned operation gives its result on `r` and 0 on `ill` (R25, R66, R71). -/
def drive (result : Word) (s : State) : Host.Outcome State Fault Refusal :=
  .next (s.record ⟨result, 0#1⟩)

/-- A reserved select value gives `r = word(0)`, `ill = 1` (R66). DESIGN CHOICE (unsafe, notes/assumptions/3.md): decision
D5 is followed literally under the parameter of 93_implementation_defined.md U3. -/
def driveReserved (op : Sel) (s : State) : Host.Outcome State Fault Refusal :=
  if Config.reservedEvaluates then .next (s.record ⟨0#64, 1#1⟩) else .refused (.reservedSelect op)

end Sys2Proof.Machine
end

