-- ==== Sys2Proof/Machine/Flags.lean ====
section
/-! DEFINITION. The predicates. The unit has no flag (R23): the one-bit answer of `sign`, `addOverflow` and `subOverflow` goes to bit 0 of `r` and nowhere else (R71). -/

namespace Sys2Proof.Machine

/-- A predicate as a Word: true is `word(1)`, false is `word(0)` (R71, decision D6). -/
def predicateWord (p : Bool) : Word :=
  zext64 (BitVec.ofBool p)

/-- `fits(n)`: a mathematical integer is in the signed 64-bit range, `MIN <= n <= MAX` (42_sign_overflow.md). -/
def fits (n : Int) : Bool :=
  decide (-(2 ^ 63 : Int) ≤ n ∧ n ≤ 2 ^ 63 - 1)

end Sys2Proof.Machine
end

