-- ==== Sys2Proof/Machine/BitRange.lean ====
section
/-! DEFINITION. Bit-range access (41_bit_range.md): `getBits`, `setBits`, `clearBits`. One validity test, a fallback per operation (R93). -/

namespace Sys2Proof.Machine

/-- Bits `lo` to `hi` of `a`, right-aligned; 0 for an invalid range (R90, R141). -/
def getBits (a : Word) (lo hi : Int) : Word :=
  if validRange lo hi then zext64 (slice a hi.toNat lo.toNat) else 0#64

/-- `a` with bits `lo` to `hi` forced to ones; `a` itself for an invalid range (R91, R142). -/
def setBits (a : Word) (lo hi : Int) : Word :=
  if validRange lo hi then a ||| mask lo.toNat hi.toNat else a

/-- `a` with bits `lo` to `hi` forced to zeros; `a` itself for an invalid range (R92, R142). -/
def clearBits (a : Word) (lo hi : Int) : Word :=
  if validRange lo hi then a &&& ~~~mask lo.toNat hi.toNat else a

/-- `getBits(source, low, high)` (R90). -/
def execGetBits (source : Word) (low high : Idx) (s : State) : Host.Outcome State Fault Refusal :=
  drive (getBits source (indexValue low) (indexValue high)) s

/-- `setBits(source, low, high)` (R91). -/
def execSetBits (source : Word) (low high : Idx) (s : State) : Host.Outcome State Fault Refusal :=
  drive (setBits source (indexValue low) (indexValue high)) s

/-- `clearBits(source, low, high)` (R92). -/
def execClearBits (source : Word) (low high : Idx) (s : State) : Host.Outcome State Fault Refusal :=
  drive (clearBits source (indexValue low) (indexValue high)) s

end Sys2Proof.Machine
end

