-- ==== Sys2Proof/Machine/ByteAccess.lean ====
section
/-! DEFINITION. Byte assembly and access (40_byte_access.md): `buildLong`, `getByte`, `setByte`. -/

namespace Sys2Proof.Machine

/-- `r <- MemRead(0, 8)` (R80). -/
def buildLong (bytes : Lanes) : Word :=
  memRead bytes 0 8 (Nat.le_refl 8)

/-- Byte `n` of `a`, right-aligned; 0 for an index outside 0 to 7 (R81, R141). `8n` is formed only after the test. -/
def getByte (a : Word) (n : Int) : Word :=
  if validByte n then zext64 (slice a (8 * n.toNat + 7) (8 * n.toNat)) else 0#64

/-- `a` with byte `n` forced to ones; `a` itself for an index outside 0 to 7 (R82, R142). -/
def setByte (a : Word) (n : Int) : Word :=
  if validByte n then a ||| mask (8 * n.toNat) (8 * n.toNat + 7) else a

/-- `buildLong(bytes)` (R80). -/
def execBuildLong (bytes : Lanes) (s : State) : Host.Outcome State Fault Refusal :=
  drive (buildLong bytes) s

/-- `getByte(source, byteNum)` (R81). -/
def execGetByte (source : Word) (byteNum : Idx) (s : State) : Host.Outcome State Fault Refusal :=
  drive (getByte source (indexValue byteNum)) s

/-- `setByte(source, byteNum)` (R82). -/
def execSetByte (source : Word) (byteNum : Idx) (s : State) : Host.Outcome State Fault Refusal :=
  drive (setByte source (indexValue byteNum)) s

end Sys2Proof.Machine
end

