-- ==== Sys2Proof/Machine/CopyBits.lean ====
section
/-! DEFINITION. Cross-word composition (43_copy_bits.md): `copyBits`. -/

namespace Sys2Proof.Machine

/-- The derived high end `low + length - 1`, over the integers, without wrap-around (R111). -/
def derivedHigh (low length : Int) : Int :=
  low + length - 1

/-- `n` bits of `a` from `sl` into position `dl` of `b`, by the composition of R110; `b` if either derived range is invalid
(R142). -/
def copyBits (a b : Word) (sl dl n : Int) : Word :=
  if validRange sl (derivedHigh sl n) ∧ validRange dl (derivedHigh dl n) then
    clearBits b dl (derivedHigh dl n) ||| shiftLeft (getBits a sl (derivedHigh sl n)) dl.toNat
  else b

/-- `copyBits(source, dest, srcLow, dstLow, length)` (R110). -/
def execCopyBits (source dest : Word) (srcLow dstLow length : Idx) (s : State) : Host.Outcome State Fault Refusal :=
  drive (copyBits source dest (indexValue srcLow) (indexValue dstLow) (indexValue length)) s

end Sys2Proof.Machine
end

