-- ==== Sys2Proof/Machine/Reserved.lean ====
section
/-! DEFINITION. The six reserved select values (30_encoding.md, R66). -/

namespace Sys2Proof.Machine

/-- The reserved select value `0x3` (R66). -/
def execReserved0x3 (s : State) : Host.Outcome State Fault Refusal :=
  driveReserved 0x3#4 s

/-- The reserved select value `0x7` (R66). -/
def execReserved0x7 (s : State) : Host.Outcome State Fault Refusal :=
  driveReserved 0x7#4 s

/-- The reserved select value `0xB` (R66). -/
def execReserved0xB (s : State) : Host.Outcome State Fault Refusal :=
  driveReserved 0xB#4 s

/-- The reserved select value `0xD` (R66). -/
def execReserved0xD (s : State) : Host.Outcome State Fault Refusal :=
  driveReserved 0xD#4 s

/-- The reserved select value `0xE` (R66). -/
def execReserved0xE (s : State) : Host.Outcome State Fault Refusal :=
  driveReserved 0xE#4 s

/-- The reserved select value `0xF` (R66). -/
def execReserved0xF (s : State) : Host.Outcome State Fault Refusal :=
  driveReserved 0xF#4 s

end Sys2Proof.Machine
end

