-- ==== Sys2Proof/Machine/SignOverflow.lean ====
section
/-! DEFINITION. Sign and overflow predicates (42_sign_overflow.md): `sign`, `addOverflow`, `subOverflow`, in their defining forms over the integers. -/

namespace Sys2Proof.Machine

/-- Bit 63 of `a` (R100). -/
def sign (a : Word) : Word :=
  predicateWord a[63]

/-- 1 when the signed sum of the operands does not fit 64 bits (R101). -/
def addOverflow (a b : Word) : Word :=
  predicateWord (!fits (signedValue a + signedValue b))

/-- 1 when the signed difference `op2 - op1`, that is `b - a`, does not fit 64 bits (R102, R169). -/
def subOverflow (a b : Word) : Word :=
  predicateWord (!fits (signedValue b - signedValue a))

/-- `sign(source)` (R100). -/
def execSign (source : Word) (s : State) : Host.Outcome State Fault Refusal :=
  drive (sign source) s

/-- `addOverflow(op1, op2)` (R101). -/
def execAddOverflow (op1 op2 : Word) (s : State) : Host.Outcome State Fault Refusal :=
  drive (addOverflow op1 op2) s

/-- `subOverflow(op1, op2)`: the first argument is the one subtracted (R102). -/
def execSubOverflow (op1 op2 : Word) (s : State) : Host.Outcome State Fault Refusal :=
  drive (subOverflow op1 op2) s

end Sys2Proof.Machine
end

