-- ==== Sys2Proof/Machine/Dispatch.lean ====
section
/-! DEFINITION. The meaning of each instruction: one arm per constructor of Instr, in the order of the table. -/

namespace Sys2Proof.Machine

def exec (i : Instr) (s : State) : Host.Outcome State Fault Refusal :=
  match i with
  -- byte assembly and access
  | .buildLong bytes => Sys2Proof.Machine.execBuildLong bytes s
  | .getByte source byteNum => Sys2Proof.Machine.execGetByte source byteNum s
  | .setByte source byteNum => Sys2Proof.Machine.execSetByte source byteNum s
  -- bit-range access
  | .getBits source low high => Sys2Proof.Machine.execGetBits source low high s
  | .setBits source low high => Sys2Proof.Machine.execSetBits source low high s
  | .clearBits source low high => Sys2Proof.Machine.execClearBits source low high s
  -- sign and overflow predicates
  | .sign source => Sys2Proof.Machine.execSign source s
  | .addOverflow op1 op2 => Sys2Proof.Machine.execAddOverflow op1 op2 s
  | .subOverflow op1 op2 => Sys2Proof.Machine.execSubOverflow op1 op2 s
  -- cross-word composition
  | .copyBits source dest srcLow dstLow length => Sys2Proof.Machine.execCopyBits source dest srcLow dstLow length s
  -- reserved select values
  | .reserved0x3 => Sys2Proof.Machine.execReserved0x3 s
  | .reserved0x7 => Sys2Proof.Machine.execReserved0x7 s
  | .reserved0xB => Sys2Proof.Machine.execReserved0xB s
  | .reserved0xD => Sys2Proof.Machine.execReserved0xD s
  | .reserved0xE => Sys2Proof.Machine.execReserved0xE s
  | .reserved0xF => Sys2Proof.Machine.execReserved0xF s

end Sys2Proof.Machine
end

