-- ==== Sys2Proof/Machine/Step.lean ====
section
/-! DEFINITION. The unit's one kind of step, the evaluation (R26), and how a command comes onto the input ports. -/

namespace Sys2Proof.Machine

/-- One evaluation: decode the command on the input ports and run it (R26, R63); the host gets the outputs of the command now
on the ports (R152). -/
def step (s : State) : Host.Outcome State Fault Refusal :=
  exec (decode s.ports) s

/-- The host drives a command on the input ports (R27, R152); the output ports are `Eval` of it from that moment on (R28). -/
def State.present (c : Command) (s : State) : State :=
  { s with ports := c }

/-- The host presents the command whose bundle is the low `nbits` bits of `w` (R60), so that the next step evaluates it.
The unit stores no instruction (R52): this stands for the host's presenting it (notes/assumptions/5.md). -/
def State.withFetchWord (s : State) (nbits w : Nat) : State :=
  s.present (Command.ofBundle (bundleOfNat (lowBits nbits w)))

end Sys2Proof.Machine
end

