-- ==== Sys2Proof/Machine/Eval.lean ====
section
/-! DEFINITION. The function `Eval` of R26 and the output ports it drives. `Eval` is written over the ports alone: the table of R63 by the value of `op`, and the port assignment of R64. Claims compare the step with it. -/

namespace Sys2Proof.Machine

/-- `(r, ill) = Eval(c)`. It names no instruction, no decoder and no state. -/
def evaluate (c : Command) : Output :=
  if c.op = 0x0#4 then ⟨buildLong c.lanes, 0#1⟩
  else if c.op = 0x1#4 then ⟨getByte c.a c.i0.toInt, 0#1⟩
  else if c.op = 0x2#4 then ⟨setByte c.a c.i0.toInt, 0#1⟩
  else if c.op = 0x4#4 then ⟨getBits c.a c.i0.toInt c.i1.toInt, 0#1⟩
  else if c.op = 0x5#4 then ⟨setBits c.a c.i0.toInt c.i1.toInt, 0#1⟩
  else if c.op = 0x6#4 then ⟨clearBits c.a c.i0.toInt c.i1.toInt, 0#1⟩
  else if c.op = 0x8#4 then ⟨sign c.a, 0#1⟩
  else if c.op = 0x9#4 then ⟨addOverflow c.a c.b, 0#1⟩
  else if c.op = 0xA#4 then ⟨subOverflow c.a c.b, 0#1⟩
  else if c.op = 0xC#4 then ⟨copyBits c.a c.b c.i0.toInt c.i1.toInt c.i2.toInt, 0#1⟩
  else ⟨0#64, 1#1⟩

/-- What the output ports carry now: the evaluation of "the values then on the input ports", "at every moment" (R28, R160,
R164). It is computed, never stored. -/
def State.output (s : State) : Output :=
  evaluate s.ports

/-- The output port `r` (R25). -/
def State.r (s : State) : Word :=
  s.output.r

/-- The output port `ill` (R25). -/
def State.ill (s : State) : Bit :=
  s.output.ill

end Sys2Proof.Machine
end

