-- ==== Sys2Proof/Machine/Written.lean ====
section
/-! DEFINITION. The written form of a command (R69, R70): the assembler from a written call to an instruction, the call an instruction is written as, and the reader of the text `mnemonic(arg1, ...)` and `mnemonic(arg1, ...) == value`. -/

namespace Sys2Proof.Machine

/-! ### From a written call to an instruction -/

/-- A Word argument (R69). -/
def Arg.toWord (arg : Arg) : Except CallReject Word :=
  match arg with
  | .hex n => if arg.isWord then .ok (BitVec.ofNat 64 n) else .error .notAWord
  | .dec _ => .error .notAWord
  | .list _ => .error .notAWord

/-- An index argument (R65, R69). -/
def Arg.toIndex (arg : Arg) : Except CallReject Idx :=
  match arg with
  | .hex n => if arg.isIndex then .ok (BitVec.ofNat 32 n) else .error .notAnIndex
  | .dec n => if arg.isIndex then .ok (BitVec.ofInt 32 n) else .error .notAnIndex
  | .list _ => .error .notAnIndex

/-- The argument of `buildLong`: exactly eight bytes, lane 0 first; no other length is padded or cut (R69, R144). -/
def Arg.toLanes (arg : Arg) : Except CallReject Lanes :=
  match arg with
  | .list [b0, b1, b2, b3, b4, b5, b6, b7] =>
    if arg.isBytes then
      .ok #v[BitVec.ofNat 8 b0, BitVec.ofNat 8 b1, BitVec.ofNat 8 b2, BitVec.ofNat 8 b3,
        BitVec.ofNat 8 b4, BitVec.ofNat 8 b5, BitVec.ofNat 8 b6, BitVec.ofNat 8 b7]
    else .error .notEightBytes
  | _ => .error .notEightBytes

/-- The operations on one Word and one index (format Y), given their constructor. -/
def assembleY (make : Word → Idx → Instr) (args : List Arg) : Except CallReject Instr :=
  match args with
  | [x, i] => do return make (← Arg.toWord x) (← Arg.toIndex i)
  | _ => .error .wrongArgumentCount

/-- The operations on one Word and a range (format R). -/
def assembleR (make : Word → Idx → Idx → Instr) (args : List Arg) : Except CallReject Instr :=
  match args with
  | [x, i, j] => do return make (← Arg.toWord x) (← Arg.toIndex i) (← Arg.toIndex j)
  | _ => .error .wrongArgumentCount

/-- The operations on two Words (format P). -/
def assembleP (make : Word → Word → Instr) (args : List Arg) : Except CallReject Instr :=
  match args with
  | [x, y] => do return make (← Arg.toWord x) (← Arg.toWord y)
  | _ => .error .wrongArgumentCount

/-- The instruction a written call stands for, or why it is refused (R61, R69, R70). -/
def assemble (c : Call) : Except CallReject Instr :=
  match Mnemonic.ofName c.name with
  | none => .error .unknownName
  | some .buildLong =>
    match c.args with
    | [x] => do return .buildLong (← Arg.toLanes x)
    | _ => .error .wrongArgumentCount
  | some .getByte => assembleY .getByte c.args
  | some .setByte => assembleY .setByte c.args
  | some .getBits => assembleR .getBits c.args
  | some .setBits => assembleR .setBits c.args
  | some .clearBits => assembleR .clearBits c.args
  | some .sign =>
    match c.args with
    | [x] => do return .sign (← Arg.toWord x)
    | _ => .error .wrongArgumentCount
  | some .addOverflow => assembleP .addOverflow c.args
  | some .subOverflow => assembleP .subOverflow c.args
  | some .copyBits =>
    match c.args with
    | [x, y, i, j, k] => do
      return .copyBits (← Arg.toWord x) (← Arg.toWord y) (← Arg.toIndex i) (← Arg.toIndex j) (← Arg.toIndex k)
    | _ => .error .wrongArgumentCount

/-- A Word as it is written: in hexadecimal. -/
def wordArg (w : Word) : Arg :=
  .hex w.toNat

/-- An index as it is written: in decimal, optionally negative. -/
def indexArg (i : Idx) : Arg :=
  .dec i.toInt

/-- The written call of an instruction, under the document's name (R69). A reserved select value has none. -/
def writtenCall (i : Instr) : Option Call :=
  match i with
  | .buildLong bytes => some ⟨"buildLong", [.list (bytes.toList.map BitVec.toNat)]⟩
  | .getByte x n => some ⟨"getByte", [wordArg x, indexArg n]⟩
  | .setByte x n => some ⟨"setByte", [wordArg x, indexArg n]⟩
  | .getBits x lo hi => some ⟨"getBits", [wordArg x, indexArg lo, indexArg hi]⟩
  | .setBits x lo hi => some ⟨"setBits", [wordArg x, indexArg lo, indexArg hi]⟩
  | .clearBits x lo hi => some ⟨"clearBits", [wordArg x, indexArg lo, indexArg hi]⟩
  | .sign x => some ⟨"sign", [wordArg x]⟩
  | .addOverflow x y => some ⟨"addOverflow", [wordArg x, wordArg y]⟩
  | .subOverflow x y => some ⟨"subOverflow", [wordArg x, wordArg y]⟩
  | .copyBits x y sl dl n => some ⟨"copyBits", [wordArg x, wordArg y, indexArg sl, indexArg dl, indexArg n]⟩
  | .reserved0x3 => none
  | .reserved0x7 => none
  | .reserved0xB => none
  | .reserved0xD => none
  | .reserved0xE => none
  | .reserved0xF => none

/-! ### From text to a written call (R69). DESIGN CHOICE (safe, notes/assumptions/10.md): where the blanks may stand -/

/-- The words and marks of the text. -/
inductive Token where
  | name (chars : List Char)
  | hexNumber (n : Nat)
  | decNumber (n : Int)
  | openCall | closeCall | openList | closeList | comma | equals
  deriving DecidableEq, Repr

/-- The value of a decimal digit. -/
def decDigit (c : Char) : Option Nat :=
  if '0' ≤ c ∧ c ≤ '9' then some (c.toNat - '0'.toNat) else none

/-- The value of a hexadecimal digit. -/
def hexDigit (c : Char) : Option Nat :=
  if '0' ≤ c ∧ c ≤ '9' then some (c.toNat - '0'.toNat)
  else if 'a' ≤ c ∧ c ≤ 'f' then some (c.toNat - 'a'.toNat + 10)
  else if 'A' ≤ c ∧ c ≤ 'F' then some (c.toNat - 'A'.toNat + 10)
  else none

/-- The number a digit list writes, most significant digit first, from the value `acc` of the digits before it. DESIGN CHOICE
(safe, notes/assumptions/10.md): any count of leading zeros is read. -/
def readDigits (base : Nat) (digit : Char → Option Nat) : List Char → Nat → Option Nat
  | [], acc => some acc
  | c :: cs, acc =>
    match digit c with
    | none => none
    | some d => readDigits base digit cs (acc * base + d)

/-- A word of the text as a number or a name: `0x` and hexadecimal digits, an optional `-` and decimal digits, or a name. -/
def classifyWord (cs : List Char) : Option Token :=
  match cs with
  | '0' :: 'x' :: d :: ds => (readDigits 16 hexDigit (d :: ds) 0).map .hexNumber
  | '-' :: d :: ds => (readDigits 10 decDigit (d :: ds) 0).map fun n => .decNumber (-(n : Int))
  | c :: rest =>
    if (decDigit c).isSome then (readDigits 10 decDigit (c :: rest) 0).map fun n => .decNumber n
    else some (.name (c :: rest))
  | [] => none

/-- The characters a word is made of. -/
def isWordChar (c : Char) : Bool :=
  c.isAlphanum || c == '-'

/-- The word read so far, given in reverse, as at most one token in front of the others. -/
def closeWord (word : List Char) (rest : List Token) : Option (List Token) :=
  match word with
  | [] => some rest
  | c :: cs => (classifyWord (c :: cs).reverse).map (· :: rest)

/-- Cut the text into tokens; `word` is the word read so far, in reverse. A character that has no place in the written form
gives none. -/
def tokens : List Char → List Char → Option (List Token)
  | [], word => closeWord word []
  | '=' :: '=' :: cs, word => (tokens cs []).bind fun ts => closeWord word (.equals :: ts)
  | c :: cs, word =>
    if isWordChar c then tokens cs (c :: word)
    else
      (tokens cs []).bind fun ts =>
        if c = ' ' then closeWord word ts
        else if c = '(' then closeWord word (.openCall :: ts)
        else if c = ')' then closeWord word (.closeCall :: ts)
        else if c = '[' then closeWord word (.openList :: ts)
        else if c = ']' then closeWord word (.closeList :: ts)
        else if c = ',' then closeWord word (.comma :: ts)
        else none

/-- The arguments up to the closing parenthesis, and the tokens after it. `list` holds the values of a bracketed list that is
open, `want` says that a value must come next. -/
def readArgs : List Token → List Arg → Option (List Nat) → Bool → Option (List Arg × List Token)
  | [], _, _, _ => none
  | t :: ts, args, none, true =>
    match t with
    | .hexNumber n => readArgs ts (args ++ [.hex n]) none false
    | .decNumber n => readArgs ts (args ++ [.dec n]) none false
    | .openList => readArgs ts args (some []) true
    | _ => none
  | t :: ts, args, none, false =>
    match t with
    | .comma => readArgs ts args none true
    | .closeCall => some (args, ts)
    | _ => none
  | t :: ts, args, some bs, true =>
    match t with
    | .hexNumber n => readArgs ts args (some (bs ++ [n])) false
    | .decNumber (.ofNat n) => readArgs ts args (some (bs ++ [n])) false
    | _ => none
  | t :: ts, args, some bs, false =>
    match t with
    | .comma => readArgs ts args (some bs) true
    | .closeList => readArgs ts (args ++ [.list bs]) none false
    | _ => none

/-- The expected value of a scenario: a number, or `true` or `false`, which stand for `word(1)` and `word(0)` (R69, R71). -/
def readExpected (ts : List Token) : Option (Option Word) :=
  match ts with
  | [] => some none
  | [.equals, .hexNumber n] => if n < 2 ^ 64 then some (some (BitVec.ofNat 64 n)) else none
  | [.equals, .decNumber (.ofNat n)] => if n < 2 ^ 64 then some (some (BitVec.ofNat 64 n)) else none
  | [.equals, .name cs] =>
    if cs = "true".toList then some (some 1#64) else if cs = "false".toList then some (some 0#64) else none
  | _ => none

/-- The call a text writes, and the expected value if it writes one (R69). -/
def readText (text : List Char) : Option (Call × Option Word) :=
  match tokens text [] with
  | some (.name cs :: .openCall :: ts) =>
    match readArgs ts [] none true with
    | none => none
    | some (args, rest) => (readExpected rest).map fun e => (⟨String.ofList cs, args⟩, e)
  | _ => none

/-- The instruction a text writes (R69). -/
def assembleText (text : List Char) : Option Instr :=
  match readText text with
  | none => none
  | some (call, _) => (assemble call).toOption

/-- A text `mnemonic(...) == value` states a true scenario: the evaluation of its canonical command gives the value on `r`
with `ill = 0` (R62, R69). -/
def scenarioHolds (text : List Char) : Bool :=
  match readText text with
  | some (call, some value) =>
    match assemble call with
    | .ok i => evaluate (place i) = ⟨value, 0#1⟩
    | .error _ => false
  | _ => false

end Sys2Proof.Machine
end

