-- ==== Sys2Proof/Machine/HostRun.lean ====
section
/-! DEFINITION. A run: a finite list of commands the host chooses, each possibly built from the outputs of earlier ones (R163, R152). The list, its data flow and its end are the host's (R163). -/

namespace Sys2Proof.Machine

/-- A host's program (R163; DESIGN CHOICE, safe, notes/assumptions/12.md): at each position the host looks at its
record of the outputs so far, oldest first, and presents a command or none. -/
abbrev HostProgram := List (List Output → Option Command)

/-- Run a host's program. The result of a run is the list of `(r, ill)` pairs (R163) that it adds to the record. -/
def runHost : HostProgram → State → Host.Outcome State Fault Refusal
  | [], s => .next s
  | choose :: rest, s =>
    match choose s.results with
    | none => runHost rest s
    | some c =>
      match step (s.present c) with
      | .next t => runHost rest t
      | .fault f => .fault f
      | .refused f => .refused f

/-- The program that presents the commands of a list whatever their outputs are. -/
def fixedProgram (cs : List Command) : HostProgram :=
  cs.map fun c _ => some c

end Sys2Proof.Machine
end

