-- ==== Sys2Proof/Safety.lean ====
section
/-! DEFINITION. What a safe run is, in the terms claims use: every step answers a next state (R126, R140), and what it answers is what the output ports carry (R28). -/

namespace Sys2Proof.Machine

/-- A step neither faults nor is refused. -/
def StepCompletes (s : State) : Prop :=
  ∃ t, step s = .next t

/-- The output ports carry `o`, and the evaluation gives the host `o` and changes nothing else. -/
def Answers (s : State) (o : Output) : Prop :=
  s.output = o ∧ step s = .next { s with results := s.results ++ [o] }

/-- Every pair in the host's record is the evaluation of some command. -/
def ResultsAreEvaluations (s : State) : Prop :=
  ∀ o ∈ s.results, ∃ c, evaluate c = o

end Sys2Proof.Machine
end

