-- ==== Sys2Proof/Certificates/Slice0/Obligations.lean ====
section
/-! DEFINITION. The statements for the provers. Each docstring names the rule of spec/ it formalises, or says whose decision it rests on. -/

open Sys2Proof Sys2Proof.Machine

/-! ### Encoding -/

/-- R63, R64: one word of each group, written out bit by bit (fields `op i2 i1 i0 b a lanes`, R60), decodes to the
instruction it stands for. The layout is the spec's decisions D4, D13, D17. -/
def Obligations.SpecWordsDecodeToTheirInstructions : Prop :=
  decodeTableWord 292 0x0000000000000000000000000000000000000000000000000000000008877665544332211
      = some (.buildLong #v[0x11#8, 0x22#8, 0x33#8, 0x44#8, 0x55#8, 0x66#8, 0x77#8, 0x88#8]) ∧
  decodeTableWord 292 0x4000000000000000700000000000000000000000011223344556677880000000000000000
      = some (.getBits 0x1122334455667788#64 0#32 7#32) ∧
  decodeTableWord 292 0xa000000000000000000000000800000000000000300000000000000040000000000000000
      = some (.subOverflow 0x4#64 0x8000000000000003#64) ∧
  decodeTableWord 292 0xc000000100000000800000008887766554433221111223344556677880000000000000000
      = some (.copyBits 0x1122334455667788#64 0x8877665544332211#64 8#32 8#32 0x10#32) ∧
  decodeTableWord 292 0x7000000100000000800000008887766554433221111223344556677888877665544332211
      = some .reserved0x7

/-- R60 (decisions D2, D17): each port's bits stand in the bundle where the table of R60 puts them, lane `k` at bits
`8k+7` to `8k`, and nothing of a bundle is lost on the ports. -/
def Obligations.BundleCarriesEveryPortAtItsPlace : Prop :=
  (∀ c : Command,
    c.toBundle.extractLsb' 288 4 = c.op ∧ c.toBundle.extractLsb' 256 32 = c.i2 ∧
    c.toBundle.extractLsb' 224 32 = c.i1 ∧ c.toBundle.extractLsb' 192 32 = c.i0 ∧
    c.toBundle.extractLsb' 128 64 = c.b ∧ c.toBundle.extractLsb' 64 64 = c.a ∧
    ∀ k : Fin 8, c.toBundle.extractLsb' (8 * k) 8 = c.lanes[k]) ∧
  (∀ c : Command, Command.ofBundle c.toBundle = c) ∧
  (∀ w : Bundle, (Command.ofBundle w).toBundle = w)

/-- R63 (decision D4): decoding is total on the 2^292 values of `CMD`, and the instruction is the row of the table whose
code is `CMD[291:288]`, by `op` alone; a wider number is refused (notes/assumptions/6.md). -/
def Obligations.DecoderFollowsTheSelectTable : Prop :=
  (∀ w : Bundle, ∃ i, decodeTableWord 292 w.toNat = some i ∧
    ["buildLong", "getByte", "setByte", "reserved_0x3", "getBits", "setBits", "clearBits", "reserved_0x7", "sign",
      "addOverflow", "subOverflow", "reserved_0xB", "copyBits", "reserved_0xD", "reserved_0xE", "reserved_0xF"][(w.extractLsb' 288 4).toNat]?
      = some i.mnemonic) ∧
  (∀ w : Nat, w >>> 292 ≠ 0 → decodeNumber w = .error .widerThanCommand)

/-- Headline: decoding the canonical encoding of an instruction gives it back, with every operand at every value; no bit of
an encoding is dropped (R60 to R64). -/
def Obligations.DecodeOfEncodeIsTheInstruction : Prop :=
  ∀ i : Instr, decode (Command.ofBundle (encode i)) = i ∧ decodeTableWord 292 (encode i).toNat = some i

/-- R62 (decision D7): a command that decodes to an instruction and carries 0 on every port the instruction does not use is
the canonical encoding of the instruction: the encoder puts 0 there, and there is one such command. -/
def Obligations.CanonicalEncodingIsUnique : Prop :=
  ∀ (i : Instr) (c : Command), decode c = i →
    (c.op ≠ 0x0#4 → c.lanes = Command.zero.lanes) →
    (c.op ∈ [0x0#4, 0x3#4, 0x7#4, 0xB#4, 0xD#4, 0xE#4, 0xF#4] → c.a = 0#64) →
    (c.op ∉ [0x9#4, 0xA#4, 0xC#4] → c.b = 0#64) →
    (c.op ∉ [0x1#4, 0x2#4, 0x4#4, 0x5#4, 0x6#4, 0xC#4] → c.i0 = 0#32) →
    (c.op ∉ [0x4#4, 0x5#4, 0x6#4, 0xC#4] → c.i1 = 0#32) →
    (c.op ≠ 0xC#4 → c.i2 = 0#32) →
    c.toBundle = encode i

/-! ### The ten operations and the reserved selects: what each drives, from every state -/

/-- R80: `buildLong` assembles its eight bytes little-endian. -/
def Obligations.BuildLongAssemblesLittleEndian : Prop :=
  (∀ (bytes : Lanes) (s : State), ∃ r, exec (.buildLong bytes) s = .next { s with results := s.results ++ [⟨r, 0#1⟩] } ∧
    (∀ (k : Fin 8) (j : Nat), j < 8 → r.getLsbD (8 * k + j) = bytes[k].getLsbD j) ∧
    r.toNat = ∑ k : Fin 8, bytes[k].toNat * 2 ^ (8 * (k : Nat))) ∧
  (∀ c : Command, c.op = 0x0#4 → decode c = .buildLong c.lanes)

/-- R81: `getByte` extracts byte `n`, zero-extended; an index outside 0 to 7 gives 0. -/
def Obligations.GetByteExtractsOneByteOrZero : Prop :=
  (∀ (a : Word) (i0 : Idx) (s : State), ∃ r, exec (.getByte a i0) s = .next { s with results := s.results ++ [⟨r, 0#1⟩] } ∧
    (∀ n : Nat, i0.toInt = n → n ≤ 7 → r.toNat = a.toNat / 2 ^ (8 * n) % 256 ∧
      ∀ j : Nat, r.getLsbD j = (decide (j < 8) && a.getLsbD (8 * n + j))) ∧
    (¬(0 ≤ i0.toInt ∧ i0.toInt ≤ 7) → r = 0#64)) ∧
  (∀ c : Command, c.op = 0x1#4 → decode c = .getByte c.a c.i0)

/-- R82: `setByte` forces byte `n` to ones and leaves every other bit; an index outside 0 to 7 gives the source. -/
def Obligations.SetByteForcesOneByteOrNothing : Prop :=
  (∀ (a : Word) (i0 : Idx) (s : State), ∃ r, exec (.setByte a i0) s = .next { s with results := s.results ++ [⟨r, 0#1⟩] } ∧
    (∀ n : Nat, i0.toInt = n → n ≤ 7 → ∀ k : Nat, k < 64 →
      r.getLsbD k = (decide (8 * n ≤ k ∧ k ≤ 8 * n + 7) || a.getLsbD k)) ∧
    (¬(0 ≤ i0.toInt ∧ i0.toInt ≤ 7) → r = a)) ∧
  (∀ c : Command, c.op = 0x2#4 → decode c = .setByte c.a c.i0)

/-- R90: `getBits` extracts bits `low` to `high`, right-aligned; an invalid range gives 0. -/
def Obligations.GetBitsExtractsTheFieldOrZero : Prop :=
  (∀ (a : Word) (i0 i1 : Idx) (s : State), ∃ r,
    exec (.getBits a i0 i1) s = .next { s with results := s.results ++ [⟨r, 0#1⟩] } ∧
    (∀ lo hi : Nat, i0.toInt = lo → i1.toInt = hi → lo ≤ hi → hi ≤ 63 →
      r.toNat = a.toNat / 2 ^ lo % 2 ^ (hi - lo + 1) ∧
      ∀ j : Nat, r.getLsbD j = (decide (j ≤ hi - lo) && a.getLsbD (lo + j))) ∧
    (¬(0 ≤ i0.toInt ∧ i0.toInt ≤ i1.toInt ∧ i1.toInt ≤ 63) → r = 0#64)) ∧
  (∀ c : Command, c.op = 0x4#4 → decode c = .getBits c.a c.i0 c.i1)

/-- R91: `setBits` forces bits `low` to `high` to ones and leaves every other bit; an invalid range gives the source. -/
def Obligations.SetBitsForcesTheFieldToOnes : Prop :=
  (∀ (a : Word) (i0 i1 : Idx) (s : State), ∃ r,
    exec (.setBits a i0 i1) s = .next { s with results := s.results ++ [⟨r, 0#1⟩] } ∧
    (∀ lo hi : Nat, i0.toInt = lo → i1.toInt = hi → lo ≤ hi → hi ≤ 63 → ∀ k : Nat, k < 64 →
      r.getLsbD k = (decide (lo ≤ k ∧ k ≤ hi) || a.getLsbD k)) ∧
    (¬(0 ≤ i0.toInt ∧ i0.toInt ≤ i1.toInt ∧ i1.toInt ≤ 63) → r = a)) ∧
  (∀ c : Command, c.op = 0x5#4 → decode c = .setBits c.a c.i0 c.i1)

/-- R92: `clearBits` forces bits `low` to `high` to zeros and leaves every other bit; an invalid range gives the source. -/
def Obligations.ClearBitsForcesTheFieldToZeros : Prop :=
  (∀ (a : Word) (i0 i1 : Idx) (s : State), ∃ r,
    exec (.clearBits a i0 i1) s = .next { s with results := s.results ++ [⟨r, 0#1⟩] } ∧
    (∀ lo hi : Nat, i0.toInt = lo → i1.toInt = hi → lo ≤ hi → hi ≤ 63 → ∀ k : Nat, k < 64 →
      r.getLsbD k = (!decide (lo ≤ k ∧ k ≤ hi) && a.getLsbD k)) ∧
    (¬(0 ≤ i0.toInt ∧ i0.toInt ≤ i1.toInt ∧ i1.toInt ≤ 63) → r = a)) ∧
  (∀ c : Command, c.op = 0x6#4 → decode c = .clearBits c.a c.i0 c.i1)

/-- R100: `sign` gives bit 63, which is 1 exactly when the Word is negative, exactly when it is at least 2^63 unsigned. -/
def Obligations.SignGivesTheSignBit : Prop :=
  (∀ (a : Word) (s : State), ∃ r, exec (.sign a) s = .next { s with results := s.results ++ [⟨r, 0#1⟩] } ∧
    r.toNat = (a.getLsbD 63).toNat ∧
    (r = 1#64 ↔ (a.toNat : Int) - 2 ^ 64 * (a.getLsbD 63).toNat < 0) ∧
    (r = 1#64 ↔ 2 ^ 63 ≤ a.toNat)) ∧
  (∀ c : Command, c.op = 0x8#4 → decode c = .sign c.a)

/-- R101: `addOverflow` is 1 exactly when the mathematical sum of the signed operands is outside the signed 64-bit range,
and then exactly when the operands have the same sign and the wrapped sum's sign differs; it is symmetric. -/
def Obligations.AddOverflowReportsTheSignedSum : Prop :=
  (∀ (a b : Word) (s : State), ∃ r, exec (.addOverflow a b) s = .next { s with results := s.results ++ [⟨r, 0#1⟩] } ∧
    r = (if -2 ^ 63 ≤ a.toInt + b.toInt ∧ a.toInt + b.toInt ≤ 2 ^ 63 - 1 then 0#64 else 1#64) ∧
    r.getLsbD 0 = (a.getLsbD 63 == b.getLsbD 63 && (a + b).getLsbD 63 != a.getLsbD 63) ∧
    exec (.addOverflow b a) s = exec (.addOverflow a b) s) ∧
  (∀ c : Command, c.op = 0x9#4 → decode c = .addOverflow c.a c.b)

/-- R102: `subOverflow(op1, op2)` is 1 exactly when the mathematical difference `op2 - op1` of the signed operands is outside
the signed 64-bit range, and then exactly when their signs differ and the wrapped difference's sign is not that of `op2`. The
two orders give different answers exactly when the difference is 2^63 or -2^63. The bit-level form (R102, R103) and the clause on
the two orders (R102) are the spec's own derivations from R102's defining form, marked so there; the document states neither. -/
def Obligations.SubOverflowReportsTheSignedDifference : Prop :=
  (∀ (a b : Word) (s : State), ∃ r u,
    exec (.subOverflow a b) s = .next { s with results := s.results ++ [⟨r, 0#1⟩] } ∧
    r = (if -2 ^ 63 ≤ b.toInt - a.toInt ∧ b.toInt - a.toInt ≤ 2 ^ 63 - 1 then 0#64 else 1#64) ∧
    r.getLsbD 0 = (b.getLsbD 63 != a.getLsbD 63 && (b - a).getLsbD 63 != b.getLsbD 63) ∧
    exec (.subOverflow b a) s = .next { s with results := s.results ++ [⟨u, 0#1⟩] } ∧
    (r ≠ u ↔ b.toInt - a.toInt = 2 ^ 63 ∨ a.toInt - b.toInt = 2 ^ 63)) ∧
  (∀ c : Command, c.op = 0xA#4 → decode c = .subOverflow c.a c.b)

/-- R110: `copyBits` copies `length` bits of the source from `srcLow` to `dstLow` of the destination and leaves its other
bits; if either derived range, with its high end computed over the integers, is invalid, it gives the destination. -/
def Obligations.CopyBitsCopiesTheFieldOrNothing : Prop :=
  (∀ (a b : Word) (i0 i1 i2 : Idx) (s : State), ∃ r,
    exec (.copyBits a b i0 i1 i2) s = .next { s with results := s.results ++ [⟨r, 0#1⟩] } ∧
    (∀ sl dl n : Nat, i0.toInt = sl → i1.toInt = dl → i2.toInt = n → 1 ≤ n → sl + n ≤ 64 → dl + n ≤ 64 →
      (∀ j : Nat, j < n → r.getLsbD (dl + j) = a.getLsbD (sl + j)) ∧
      (∀ k : Nat, k < dl ∨ dl + n ≤ k → r.getLsbD k = b.getLsbD k) ∧
      r = clearBits b dl (dl + n - 1) ||| (getBits a sl (sl + n - 1)) <<< dl) ∧
    (¬((0 ≤ i0.toInt ∧ i0.toInt ≤ i0.toInt + i2.toInt - 1 ∧ i0.toInt + i2.toInt - 1 ≤ 63) ∧
        (0 ≤ i1.toInt ∧ i1.toInt ≤ i1.toInt + i2.toInt - 1 ∧ i1.toInt + i2.toInt - 1 ≤ 63)) → r = b)) ∧
  (∀ c : Command, c.op = 0xC#4 → decode c = .copyBits c.a c.b c.i0 c.i1 c.i2)

/-- R66: each reserved select value gives `r = word(0)` and `ill = 1`, reads no other port and changes none. That it evaluates
is the spec's decision D5, which the model follows rather than refuse (its choice: notes/assumptions/3.md). -/
def Obligations.ReservedSelectsDriveZeroAndIll : Prop :=
  ∀ s : State,
    exec .reserved0x3 s = .next { s with results := s.results ++ [⟨0#64, 1#1⟩] } ∧
    exec .reserved0x7 s = .next { s with results := s.results ++ [⟨0#64, 1#1⟩] } ∧
    exec .reserved0xB s = .next { s with results := s.results ++ [⟨0#64, 1#1⟩] } ∧
    exec .reserved0xD s = .next { s with results := s.results ++ [⟨0#64, 1#1⟩] } ∧
    exec .reserved0xE s = .next { s with results := s.results ++ [⟨0#64, 1#1⟩] } ∧
    exec .reserved0xF s = .next { s with results := s.results ++ [⟨0#64, 1#1⟩] }

/-- R141, R142, with `ill = 0` by R143 and R67: the two fallback policies, on the output ports and in the answer of the step.
Out-of-range input gives zero for `getByte` and `getBits`, the port `a` for `setByte`, `setBits`, `clearBits`, the port `b` for
`copyBits`. Nothing is claimed of a reserved select. -/
def Obligations.FallbackPoliciesAreSilentAndDistinct : Prop :=
  ∀ s : State,
    (s.ports.op = 0x1#4 → ¬(0 ≤ s.ports.i0.toInt ∧ s.ports.i0.toInt ≤ 7) → Answers s ⟨0#64, 0#1⟩) ∧
    (s.ports.op = 0x2#4 → ¬(0 ≤ s.ports.i0.toInt ∧ s.ports.i0.toInt ≤ 7) → Answers s ⟨s.ports.a, 0#1⟩) ∧
    (s.ports.op = 0x4#4 → ¬validRange s.ports.i0.toInt s.ports.i1.toInt → Answers s ⟨0#64, 0#1⟩) ∧
    (s.ports.op = 0x5#4 ∨ s.ports.op = 0x6#4 → ¬validRange s.ports.i0.toInt s.ports.i1.toInt →
      Answers s ⟨s.ports.a, 0#1⟩) ∧
    (s.ports.op = 0xC#4 →
      ¬(validRange s.ports.i0.toInt (s.ports.i0.toInt + s.ports.i2.toInt - 1) ∧
        validRange s.ports.i1.toInt (s.ports.i1.toInt + s.ports.i2.toInt - 1)) → Answers s ⟨s.ports.b, 0#1⟩)

/-! ### The laws the document states (44_laws.md) and those of the shared helpers -/

/-- R9, R167: `mask(lo, hi)` has bit `k` set exactly when `lo <= k <= hi`, and its value is `2^(hi+1) - 2^lo`, the full-width
mask included. -/
def Obligations.MaskHasExactlyTheBitsOfItsRange : Prop :=
  ∀ lo hi : Nat, lo ≤ hi → hi ≤ 63 →
    (mask lo hi).toNat = 2 ^ (hi + 1) - 2 ^ lo ∧
    ∀ k : Nat, (mask lo hi).getLsbD k = decide (lo ≤ k ∧ k ≤ hi)

/-- R7: `s(w) = u(w) - 2^64 * w[63]` and `int(i) = u(i) - 2^32 * i[31]`, in their ranges (the formula is G1's). -/
def Obligations.SignedValuesFollowTheFormula : Prop :=
  (∀ w : Word, signedValue w = (w.toNat : Int) - 2 ^ 64 * (w.getLsbD 63).toNat ∧
    -2 ^ 63 ≤ signedValue w ∧ signedValue w ≤ 2 ^ 63 - 1) ∧
  (∀ i : Idx, indexValue i = (i.toNat : Int) - 2 ^ 32 * (i.getLsbD 31).toNat ∧
    -2 ^ 31 ≤ indexValue i ∧ indexValue i ≤ 2 ^ 31 - 1)

/-- R42: `MemRead(addr, n)` is the sum over `j < n` of `u(by[addr+j]) * 2^(8j)`. -/
def Obligations.MemReadIsLittleEndian : Prop :=
  ∀ (lanes : Lanes) (addr n : Nat) (h : addr + n ≤ 8),
    (memRead lanes addr n h).toNat = ∑ j : Fin n, lanes[addr + (j : Nat)].toNat * 2 ^ (8 * (j : Nat))

/-- R120: a set range reads back as all ones. -/
def Obligations.SetThenReadGivesAllOnes : Prop :=
  ∀ (w : Word) (lo hi : Int), validRange lo hi →
    (getBits (setBits w lo hi) lo hi).toNat = 2 ^ (hi - lo + 1).toNat - 1

/-- R121: a cleared range reads back as zero. -/
def Obligations.ClearThenReadGivesZero : Prop :=
  ∀ (w : Word) (lo hi : Int), validRange lo hi → getBits (clearBits w lo hi) lo hi = 0#64

/-- R122: `setBits` and `clearBits` never change a bit outside the range. -/
def Obligations.BitsOutsideTheRangeAreUntouched : Prop :=
  ∀ (w : Word) (lo hi : Int), validRange lo hi →
    w &&& ~~~mask lo.toNat hi.toNat = setBits w lo hi &&& ~~~mask lo.toNat hi.toNat ∧
    w &&& ~~~mask lo.toNat hi.toNat = clearBits w lo hi &&& ~~~mask lo.toNat hi.toNat

/-- R123: the identity copy, for position 0 only; a copy of 64 bits at any other position gives the destination. -/
def Obligations.IdentityCopyAtPositionZeroOnly : Prop :=
  ∀ s d : Word, copyBits s d 0 0 64 = s ∧ ∀ l : Int, l ≠ 0 → copyBits s d l l 64 = d

/-- R124: the sign is the one-bit extract of bit 63. -/
def Obligations.SignIsTheExtractOfBit63 : Prop :=
  ∀ w : Word, sign w = getBits w 63 63

/-- R125: setting or clearing a range twice is setting or clearing it once. The same for a byte is R125's own derivation from
R82, marked so there. -/
def Obligations.SetAndClearAreIdempotent : Prop :=
  (∀ (w : Word) (lo hi : Int), setBits (setBits w lo hi) lo hi = setBits w lo hi ∧
    clearBits (clearBits w lo hi) lo hi = clearBits w lo hi) ∧
  (∀ (w : Word) (n : Int), setByte (setByte w n) n = setByte w n)

/-- R83, R45: the byte operations are the bit-range operations at `(8n, 8n+7)`, for every integer index, out of range too;
a byte that was set reads back as 0xff; `getByte` of an assembled Word gives the lane back; and a Word taken apart into its
bytes and assembled again is itself. -/
def Obligations.ByteOperationsAgreeWithBitRanges : Prop :=
  (∀ (w : Word) (n : Int), getByte w n = getBits w (8 * n) (8 * n + 7) ∧ setByte w n = setBits w (8 * n) (8 * n + 7)) ∧
  (∀ (w : Word) (n : Int), 0 ≤ n → n ≤ 7 → getByte (setByte w n) n = 0xff#64) ∧
  (∀ (lanes : Lanes) (k : Fin 8), (getByte (buildLong lanes) (k : Nat)).toNat = lanes[k].toNat) ∧
  (∀ w : Word, buildLong (Vector.ofFn fun k : Fin 8 => (getByte w (k : Nat)).setWidth 8) = w)

/-- R128, first part: what setting, clearing and reading one range do to each other. -/
def Obligations.RangeOperationsAbsorbEachOther : Prop :=
  ∀ (w : Word) (lo hi : Int), validRange lo hi →
    (getBits w lo hi).toNat ≤ 2 ^ (hi - lo + 1).toNat - 1 ∧
    getBits w 0 63 = w ∧
    setBits w lo hi &&& mask lo.toNat hi.toNat = mask lo.toNat hi.toNat ∧
    clearBits w lo hi &&& mask lo.toNat hi.toNat = 0#64 ∧
    setBits 0#64 lo hi = mask lo.toNat hi.toNat ∧
    clearBits (setBits w lo hi) lo hi = clearBits w lo hi ∧
    setBits (clearBits w lo hi) lo hi = setBits w lo hi

/-- R128, second part, and R112: a copied field reads back as the source's field, the destination is untouched outside it,
and copying a field of a Word onto itself changes nothing. -/
def Obligations.CopiedFieldReadsBack : Prop :=
  ∀ (s d : Word) (sl dl n : Int), validRange sl (sl + n - 1) → validRange dl (dl + n - 1) →
    getBits (copyBits s d sl dl n) dl (dl + n - 1) = getBits s sl (sl + n - 1) ∧
    copyBits s d sl dl n &&& ~~~mask dl.toNat (dl + n - 1).toNat = d &&& ~~~mask dl.toNat (dl + n - 1).toNat ∧
    copyBits s s sl sl n = s

/-- R112: the corner cases of `copyBits`: a length of 0 or less or more than 64, a negative position, or a field that does
not fit gives the destination; 64 bits copy only from 0 to 0; equal positions multiplex the two Words; a field of zeros or
ones clears or sets. -/
def Obligations.CopyBitsCornerCases : Prop :=
  ∀ (a b : Word) (sl dl n : Int),
    (n ≤ 0 ∨ 64 < n ∨ sl < 0 ∨ dl < 0 ∨ 64 < sl + n ∨ 64 < dl + n → copyBits a b sl dl n = b) ∧
    (copyBits a b sl dl 64 = if sl = 0 ∧ dl = 0 then a else b) ∧
    (validRange sl (sl + n - 1) → copyBits a b sl sl n =
      (b &&& ~~~mask sl.toNat (sl + n - 1).toNat) ||| (a &&& mask sl.toNat (sl + n - 1).toNat)) ∧
    (validRange sl (sl + n - 1) → validRange dl (dl + n - 1) →
      (getBits a sl (sl + n - 1) = 0#64 → copyBits a b sl dl n = clearBits b dl (dl + n - 1)) ∧
      ((getBits a sl (sl + n - 1)).toNat = 2 ^ n.toNat - 1 → copyBits a b sl dl n = setBits b dl (dl + n - 1)))

/-- R111: the exact derived high end lies between -2^32 - 1 and 2^32 - 3, and computing it with 32-bit wrap-around instead
could not be observed: the derived range is valid either way or invalid either way. -/
def Obligations.DerivedEndWrapIsUnobservable : Prop :=
  ∀ low length : Idx,
    -2 ^ 32 - 1 ≤ derivedHigh low.toInt length.toInt ∧ derivedHigh low.toInt length.toInt ≤ 2 ^ 32 - 3 ∧
    (validRange low.toInt (derivedHigh low.toInt length.toInt) ↔ validRange low.toInt (low + length - 1#32).toInt)

/-- R102, R128: with `op1 = MIN` the difference overflows exactly when `op2` is not negative, which the shortcut of adding the
negated `op1` gets wrong for every `op2`; operands of the same sign, and subtracting zero, never overflow. -/
def Obligations.SubOverflowIsNotNegateAndAdd : Prop :=
  (∀ b : Word, subOverflow 0x8000000000000000#64 b = (if 0 ≤ b.toInt then 1#64 else 0#64) ∧
    addOverflow (-0x8000000000000000#64) b ≠ subOverflow 0x8000000000000000#64 b) ∧
  (∀ x y : Word, (sign x = sign y → subOverflow x y = 0#64) ∧ (sign x ≠ sign y → addOverflow x y = 0#64) ∧
    addOverflow x 0#64 = 0#64 ∧ subOverflow 0#64 y = 0#64)

/-! ### The unit as a whole -/

/-- R11, R43: no instruction changes the value on an input port, and one pair of outputs is all it gives. The frame of every
instruction: nothing else is in the state. -/
def Obligations.NoInstructionChangesAnInputPort : Prop :=
  ∀ (i : Instr) (s t : State), exec i s = .next t → t.ports = s.ports ∧ ∃ o, t.results = s.results ++ [o]

/-- R126: every operation returns a value for every value of every operand; none aborts, blocks or signals, and what it gives
depends on its operands alone. R126 speaks of the ten operations: that the six reserved selects complete too is R66 and
decision D5, followed by the model's choice (notes/assumptions/3.md). -/
def Obligations.EveryInstructionIsTotalAndPure : Prop :=
  ∀ i : Instr, ∃ o : Output, ∀ s : State, exec i s = .next { s with results := s.results ++ [o] }

/-- A step runs the instruction that the command on the input ports decodes to (R26, R63), and adds nothing around it. That a
command given as a number is presented by withFetchWord is the model's choice (notes/assumptions/5.md), and so is that this
leaves the host's record alone (notes/assumptions/1.md). -/
def Obligations.StepRunsTheDecodedInstruction : Prop :=
  (∀ (s : State) (i : Instr), decode s.ports = i → step s = exec i s) ∧
  (∀ (s : State) (w : Bundle) (i : Instr), decodeTableWord 292 w.toNat = some i →
    step (s.withFetchWord 292 w.toNat) = exec i (s.withFetchWord 292 w.toNat) ∧
    (s.withFetchWord 292 w.toNat).results = s.results)

/-- R26: from every state the step gives the host `(r, ill) = Eval(c)` of the command on the input ports, with the
input ports unchanged: the decoder and the sixteen meanings together compute the function the port tables define. For the six
reserved selects the value `r = 0`, `ill = 1` is R66 and decision D5, followed by the model's choice
(notes/assumptions/3.md). -/
def Obligations.StepIsTheEvaluationOfThePorts : Prop :=
  ∀ s : State, step s = .next { s with results := s.results ++ [evaluate s.ports] }

/-- R28, R160, R164: the output ports are `Eval` of the input ports at every moment: as soon as a command is presented (by
its ports, by the number of its bundle), whatever was evaluated before; and each instruction gives the host what the output
ports carry once its canonical command is presented. withFetchWord is the model's way to present (notes/assumptions/5.md);
that reserved selects give an answer is its choice (notes/assumptions/3.md). -/
def Obligations.OutputsFollowThePortsAtEveryMoment : Prop :=
  (∀ (c : Command) (s : State), (s.present c).r = (evaluate c).r ∧ (s.present c).ill = (evaluate c).ill) ∧
  (∀ (w : Bundle) (s : State), (s.withFetchWord 292 w.toNat).output = evaluate (Command.ofBundle w)) ∧
  (∀ s s' : State, s.ports = s'.ports → s.r = s'.r ∧ s.ill = s'.ill) ∧
  (∀ (i : Instr) (s : State), exec i s = .next { s with results := s.results ++ [(s.present (place i)).output] })

/-- R28, R152: what a step gives the host is what the output ports carry. That they carry the same after the step, and that a
repeated step with no new command gives the same pair once more, is the model's deduction (notes/assumptions/4.md) from R11 (the
input ports are unchanged), R21 and R48 (equal commands, evaluated again, give equal outputs). It covers the reserved selects by
the model's choice (notes/assumptions/3.md). -/
def Obligations.EveryStepAnswersTheOutputPorts : Prop :=
  ∀ s t : State, step s = .next t → t.output = s.output ∧ t.results = s.results ++ [t.output] ∧
    step t = .next { t with results := t.results ++ [t.output] }

/-- Headline, an invariant every step keeps (R26, R163): every pair in the host's record is the evaluation of some command. So
in such a record `ill = 1` comes with `r = word(0)` alone (R66, decision D5, by the model's choice, notes/assumptions/3.md),
and nothing else is excluded. A run of any host's program keeps it (notes/assumptions/12.md). -/
def Obligations.EveryStepKeepsResultsEvaluations : Prop :=
  (∀ s t : State, ResultsAreEvaluations s → step s = .next t → ResultsAreEvaluations t) ∧
  (∀ (program : HostProgram) (s t : State), ResultsAreEvaluations s → runHost program s = .next t →
    ResultsAreEvaluations t) ∧
  (∀ s : State, ResultsAreEvaluations s ↔ ∀ o ∈ s.results, o.ill = 1#1 → o.r = 0#64)

/-- R28, R160: at reset the output ports carry the evaluation of the input ports, and no pair is in the record yet, so every
pair of it is an evaluation. That the input ports carry 0 there is the model's choice (notes/assumptions/2.md). -/
def Obligations.ResetOutputsMatchPorts : Prop :=
  State.reset.ports = Command.zero ∧ State.reset.output = ⟨0#64, 0#1⟩ ∧ State.reset.output = evaluate State.reset.ports ∧
  State.reset.results = [] ∧ ResultsAreEvaluations State.reset

/-- R62 (decision D7): the outputs do not depend on a port the selected operation's format does not list; for a reserved
select value they depend on `op` alone (that it answers is the model's choice, notes/assumptions/3.md). -/
def Obligations.UnusedPortsAreIgnored : Prop :=
  ∀ s s' : State, s.ports.op = s'.ports.op →
    (s.ports.op = 0x0#4 → s.ports.lanes = s'.ports.lanes) →
    (s.ports.op ∈ [0x1#4, 0x2#4, 0x4#4, 0x5#4, 0x6#4, 0x8#4, 0x9#4, 0xA#4, 0xC#4] → s.ports.a = s'.ports.a) →
    (s.ports.op ∈ [0x9#4, 0xA#4, 0xC#4] → s.ports.b = s'.ports.b) →
    (s.ports.op ∈ [0x1#4, 0x2#4, 0x4#4, 0x5#4, 0x6#4, 0xC#4] → s.ports.i0 = s'.ports.i0) →
    (s.ports.op ∈ [0x4#4, 0x5#4, 0x6#4, 0xC#4] → s.ports.i1 = s'.ports.i1) →
    (s.ports.op = 0xC#4 → s.ports.i2 = s'.ports.i2) →
    ∃ o, Answers s o ∧ Answers s' o

/-- R66, R67, R145 (decision D5): `ill` is 1 exactly for the six reserved select values, whatever the operands, and `r` is 0
there (that they answer is the model's choice, notes/assumptions/3.md); no index value is ever illegal. -/
def Obligations.IllMarksExactlyTheReservedSelects : Prop :=
  ∀ s : State, Answers s ⟨s.r, s.ill⟩ ∧
    (s.ill = 1#1 ↔ s.ports.op ∈ [0x3#4, 0x7#4, 0xB#4, 0xD#4, 0xE#4, 0xF#4]) ∧ (s.ill = 1#1 → s.r = 0#64)

/-- R48, R54, R71: the narrow results are zero-extended: a byte is below 2^8, a field of a valid range below
`2^(high-low+1)`, a predicate 0 or 1. -/
def Obligations.NarrowResultsAreZeroExtended : Prop :=
  ∀ s : State,
    (s.ports.op = 0x1#4 → s.r.toNat < 2 ^ 8 ∧ Answers s ⟨s.r, 0#1⟩) ∧
    (s.ports.op = 0x4#4 → validRange s.ports.i0.toInt s.ports.i1.toInt →
      s.r.toNat < 2 ^ (s.ports.i1.toInt - s.ports.i0.toInt + 1).toNat ∧ Answers s ⟨s.r, 0#1⟩) ∧
    (s.ports.op ∈ [0x8#4, 0x9#4, 0xA#4] → (s.r = 0#64 ∨ s.r = 1#64) ∧ Answers s ⟨s.r, 0#1⟩)

/-- R21, R50, R161: an evaluation depends on its command alone: two states with the same command on the ports answer the
same, whatever was evaluated before in either. That a step completes for every command is R126 for the ten operations, and R66
and decision D5 by the model's choice for the reserved selects (notes/assumptions/3.md). -/
def Obligations.StepForgetsEarlierOutputs : Prop :=
  ∀ s s' : State, s.ports = s'.ports → ∃ o, Answers s o ∧ Answers s' o

/-- R163: the run of any finite list of commands, from any state, ends, and its result is the list of the evaluations of
those commands, in their order; the ports then carry the last of them. The form of a program is the model's choice
(notes/assumptions/12.md), and so is that a list with reserved selects completes, with `(0, 1)` for each (R66, decision D5,
notes/assumptions/3.md). -/
def Obligations.RunOfACommandListIsItsEvaluations : Prop :=
  ∀ (cs : List Command) (s : State), ∃ t, runHost (fixedProgram cs) s = .next t ∧
    t.results = s.results ++ cs.map evaluate ∧ ∀ c ∈ cs.getLast?, t.ports = c ∧ t.output = evaluate c

/-- R50, R163: a host that builds later commands from earlier outputs, or presents none, gets the same outputs whatever is on
the ports when it begins: the unit carries nothing from one command to the next. The form of a program, and that a host may
present none, are the model's choice (notes/assumptions/12.md), and so is that a program with reserved selects completes
(notes/assumptions/3.md). -/
def Obligations.HostRunIsIndependentOfTheStartState : Prop :=
  ∀ (program : HostProgram) (s s' : State), s.results = s'.results → ∃ t t',
    runHost program s = .next t ∧ runHost program s' = .next t' ∧ t.results = t'.results ∧
    s.results <+: t.results ∧ t.results.length ≤ s.results.length + program.length

/-- R50, R166: callers whose commands a host multiplexes onto one instance, in any order, each get the outputs they would get
on an instance of their own. The form of the runs is the model's choice (notes/assumptions/12.md), and so is that lists with
reserved selects complete (notes/assumptions/3.md). -/
def Obligations.MultiplexedCallersGetTheirOwnResults : Prop :=
  ∀ (tagged : List (Nat × Command)) (caller : Nat) (s s' : State), ∃ t t' results,
    runHost (fixedProgram (tagged.map Prod.snd)) s = .next t ∧ t.results = s.results ++ results ∧
    runHost (fixedProgram ((tagged.filter fun p => p.1 = caller).map Prod.snd)) s' = .next t' ∧
    t'.results = s'.results ++ (((tagged.map Prod.fst).zip results).filter fun p => p.1 = caller).map Prod.snd

/-! ### The written form -/

/-- R69: the assembler gives back every instruction from its written call, which is well formed; exactly the reserved selects
have no written call. -/
def Obligations.AssemblerReadsBackTheWrittenCall : Prop :=
  ∀ i : Instr, (∀ c : Call, writtenCall i = some c → assemble c = .ok i ∧ c.wellFormed = true) ∧
    (writtenCall i = none ↔ i.select ∈ [0x3#4, 0x7#4, 0xB#4, 0xD#4, 0xE#4, 0xF#4])

/-- R69, R70, R144: the assembler accepts exactly the well-formed calls; an alias means what the document's name means; a byte
list of a length other than 8 is refused by name, neither padded nor cut. -/
def Obligations.AssemblerAcceptsExactlyTheWellFormedCalls : Prop :=
  (∀ c : Call, c.wellFormed = true ↔ ∃ i, assemble c = .ok i) ∧
  (∀ args : List Arg, assemble ⟨"isNegative", args⟩ = assemble ⟨"sign", args⟩ ∧
    assemble ⟨"subtractOverflow", args⟩ = assemble ⟨"subOverflow", args⟩) ∧
  (∀ bytes : List Nat, bytes.length ≠ 8 → assemble ⟨"buildLong", [.list bytes]⟩ = .error .notEightBytes)
end

