-- ==== Sys2Proof/Laws/Decode.lean ====
section
/-! SUPPORT. The decoder by the value of `op`, and where the bits of a bundle and of its lanes stand. -/

namespace Sys2Proof

theorem decode_buildLong {c : Command} (h : c.op = 0x0#4) : decode c = .buildLong c.lanes := by simp [decode, h]

theorem decode_getByte {c : Command} (h : c.op = 0x1#4) : decode c = .getByte c.a c.i0 := by simp [decode, h]

theorem decode_setByte {c : Command} (h : c.op = 0x2#4) : decode c = .setByte c.a c.i0 := by simp [decode, h]

theorem decode_reserved0x3 {c : Command} (h : c.op = 0x3#4) : decode c = .reserved0x3 := by simp [decode, h]

theorem decode_getBits {c : Command} (h : c.op = 0x4#4) : decode c = .getBits c.a c.i0 c.i1 := by simp [decode, h]

theorem decode_setBits {c : Command} (h : c.op = 0x5#4) : decode c = .setBits c.a c.i0 c.i1 := by simp [decode, h]

theorem decode_clearBits {c : Command} (h : c.op = 0x6#4) : decode c = .clearBits c.a c.i0 c.i1 := by simp [decode, h]

theorem decode_reserved0x7 {c : Command} (h : c.op = 0x7#4) : decode c = .reserved0x7 := by simp [decode, h]

theorem decode_sign {c : Command} (h : c.op = 0x8#4) : decode c = .sign c.a := by simp [decode, h]

theorem decode_addOverflow {c : Command} (h : c.op = 0x9#4) : decode c = .addOverflow c.a c.b := by simp [decode, h]

theorem decode_subOverflow {c : Command} (h : c.op = 0xA#4) : decode c = .subOverflow c.a c.b := by simp [decode, h]

theorem decode_reserved0xB {c : Command} (h : c.op = 0xB#4) : decode c = .reserved0xB := by simp [decode, h]

theorem decode_copyBits {c : Command} (h : c.op = 0xC#4) : decode c = .copyBits c.a c.b c.i0 c.i1 c.i2 := by
  simp [decode, h]

theorem decode_reserved0xD {c : Command} (h : c.op = 0xD#4) : decode c = .reserved0xD := by simp [decode, h]

theorem decode_reserved0xE {c : Command} (h : c.op = 0xE#4) : decode c = .reserved0xE := by simp [decode, h]

theorem decode_reserved0xF {c : Command} (h : c.op = 0xF#4) : decode c = .reserved0xF := by simp [decode, h]

/-- The select value is one of sixteen. -/
theorem sel_cases (op : Sel) :
    op = 0x0#4 ∨ op = 0x1#4 ∨ op = 0x2#4 ∨ op = 0x3#4 ∨ op = 0x4#4 ∨ op = 0x5#4 ∨ op = 0x6#4 ∨ op = 0x7#4 ∨
    op = 0x8#4 ∨ op = 0x9#4 ∨ op = 0xA#4 ∨ op = 0xB#4 ∨ op = 0xC#4 ∨ op = 0xD#4 ∨ op = 0xE#4 ∨ op = 0xF#4 := by
  revert op; decide

/-- An instruction decoded from a command carries the command's select value. -/
theorem select_decode (c : Command) : (decode c).select = c.op := by
  rcases sel_cases c.op with h | h | h | h | h | h | h | h | h | h | h | h | h | h | h | h <;> simp [decode, h, Instr.select]

/-- Placing an instruction's arguments on the ports and decoding them gives it back. -/
theorem decode_place (i : Instr) : decode (place i) = i := by
  cases i <;> simp [decode, place]

/-- Where a field of the bundle stands (R60), bit by bit. -/
theorem toBundle_getLsbD (c : Command) (k : Nat) :
    c.toBundle.getLsbD k =
      if k < 64 then (laneWord c.lanes).getLsbD k
      else if k < 128 then c.a.getLsbD (k - 64)
      else if k < 192 then c.b.getLsbD (k - 128)
      else if k < 224 then c.i0.getLsbD (k - 192)
      else if k < 256 then c.i1.getLsbD (k - 224)
      else if k < 288 then c.i2.getLsbD (k - 256)
      else c.op.getLsbD (k - 288) := by
  simp only [Command.toBundle, BitVec.getLsbD_append]; grind

/-- Where a lane stands in the bundle's bits 63 to 0 (R60), bit by bit. -/
theorem laneWord_getLsbD (lanes : Lanes) (k j : Nat) (hk : k < 8) (hj : j < 8) :
    (laneWord lanes).getLsbD (8 * k + j) = lanes[k].getLsbD j := by
  have : k = 0 ∨ k = 1 ∨ k = 2 ∨ k = 3 ∨ k = 4 ∨ k = 5 ∨ k = 6 ∨ k = 7 := by omega
  simp only [laneWord, BitVec.getLsbD_append]
  rcases this with rfl | rfl | rfl | rfl | rfl | rfl | rfl | rfl <;> grind

/-- The lane a Word's byte goes to. -/
theorem lanesOfWord_get (w : BitVec 64) (k : Nat) (hk : k < 8) : (lanesOfWord w)[k] = w.extractLsb' (8 * k) 8 := by
  have : k = 0 ∨ k = 1 ∨ k = 2 ∨ k = 3 ∨ k = 4 ∨ k = 5 ∨ k = 6 ∨ k = 7 := by omega
  rcases this with rfl | rfl | rfl | rfl | rfl | rfl | rfl | rfl <;> rfl

/-- `bundleOfNat` is the number as a bit vector. -/
theorem bundleOfNat_eq (w : Nat) : bundleOfNat w = BitVec.ofNat 292 w := by
  unfold bundleOfNat
  split
  · next h => exact BitVec.eq_of_toNat_eq (by simp [Nat.mod_eq_of_lt (lt_of_shiftRight_eq_zero h)])
  · rfl

/-- The number of a bundle is the bundle again. -/
theorem bundleOfNat_toNat (w : Bundle) : bundleOfNat w.toNat = w := by
  rw [bundleOfNat_eq, BitVec.ofNat_toNat, BitVec.setWidth_eq]

/-- The low bits of a number are its remainder. -/
theorem lowBits_eq_mod (nbits w : Nat) : lowBits nbits w = w % 2 ^ nbits := by
  unfold lowBits
  split
  · next h => exact (Nat.mod_eq_of_lt (lt_of_shiftRight_eq_zero h)).symm
  · rfl

/-- A number that fits a bundle has no bit above bit 291. -/
theorem shiftRight_bundle (w : Bundle) : w.toNat >>> 292 = 0 := by
  rw [Nat.shiftRight_eq_div_pow]; exact (Nat.div_eq_zero_iff).2 (.inr w.isLt)

/-- A number that fits a bundle is its own low bits. -/
theorem lowBits_bundle (w : Bundle) : lowBits 292 w.toNat = w.toNat :=
  if_pos (shiftRight_bundle w)

/-- The number of a bundle decodes to what the bundle selects. -/
theorem decodeTableWord_bundle (w : Bundle) : decodeTableWord 292 w.toNat = some (decode (Command.ofBundle w)) := by
  simp only [decodeTableWord, lowBits_bundle, decodeNumber, bundleOfNat_toNat]
  rw [if_pos (shiftRight_bundle w)]; rfl

end Sys2Proof
end

