-- ==== Sys2Proof/Laws/Ops.lean ====
section
/-! SUPPORT. What each shared operation and each operation's value function computes, bit by bit and as a number, said once; callers cite these and do not unfold. -/

namespace Sys2Proof.Machine

theorem zext64_getLsbD {n : Nat} (v : BitVec n) (h : n ≤ 64) (j : Nat) : (zext64 v).getLsbD j = v.getLsbD j := by
  simp only [zext64, BitVec.getLsbD_setWidth]; have := @BitVec.getLsbD_of_ge n v j; grind

theorem slice_getLsbD (w : Word) (hi lo j : Nat) :
    (slice w hi lo).getLsbD j = (decide (j ≤ hi - lo) && w.getLsbD (lo + j)) := by
  simp only [slice, BitVec.getLsbD_extractLsb]; congr 2; simp

theorem field_toNat (w : Word) (hi lo : Nat) (h : lo ≤ hi) (h63 : hi ≤ 63) :
    (zext64 (slice w hi lo)).toNat = w.toNat / 2 ^ lo % 2 ^ (hi - lo + 1) := by
  simp only [zext64, slice, BitVec.toNat_setWidth, BitVec.extractLsb_toNat, Nat.shiftRight_eq_div_pow]
  exact Nat.mod_eq_of_lt (Nat.lt_of_lt_of_le (Nat.mod_lt _ (by positivity)) (Nat.pow_le_pow_right (by decide) (by omega)))

theorem field_getLsbD (w : Word) (hi lo j : Nat) (h63 : hi ≤ 63) :
    (zext64 (slice w hi lo)).getLsbD j = (decide (j ≤ hi - lo) && w.getLsbD (lo + j)) := by
  rw [zext64_getLsbD _ (by omega), slice_getLsbD]

/-- The number a mask is, before it is made a Word, fits 64 bits (R9). -/
theorem mask_value_lt (lo hi : Nat) (h63 : hi ≤ 63) : 2 ^ (hi + 1) - 2 ^ lo < 2 ^ 64 := by
  have := Nat.pow_le_pow_right (n := 2) (by decide) (show hi + 1 ≤ 64 by omega)
  have := Nat.two_pow_pos lo
  omega

/-- Bit `k` of a mask (R9), for ends in the Word. -/
theorem mask_bit (lo hi k : Nat) (h : lo ≤ hi) (h63 : hi ≤ 63) :
    (mask lo hi).getLsbD k = (decide (lo ≤ k) && decide (k ≤ hi)) := by
  have e : 2 ^ (hi + 1) - 2 ^ lo = (2 ^ (hi - lo + 1) - 1) <<< lo := by
    rw [Nat.shiftLeft_eq, Nat.sub_mul, ← Nat.pow_add, Nat.one_mul]; congr 2; omega
  simp only [mask, BitVec.getLsbD_ofNat, e, Nat.testBit_shiftLeft, Nat.testBit_two_pow_sub_one]
  grind

theorem setBits_bit (w : Word) (lo hi k : Nat) (h : lo ≤ hi) (h63 : hi ≤ 63) :
    (setBits w lo hi).getLsbD k = (w.getLsbD k || decide (lo ≤ k) && decide (k ≤ hi)) := by
  have v : validRange lo hi := by simp only [validRange]; omega
  simp only [setBits, if_pos v, BitVec.getLsbD_or, Int.toNat_natCast, mask_bit lo hi k h h63]

theorem clearBits_bit (w : Word) (lo hi k : Nat) (h : lo ≤ hi) (h63 : hi ≤ 63) :
    (clearBits w lo hi).getLsbD k = (w.getLsbD k && !(decide (lo ≤ k) && decide (k ≤ hi))) := by
  have v : validRange lo hi := by simp only [validRange]; omega
  simp only [clearBits, if_pos v, BitVec.getLsbD_and, BitVec.getLsbD_not, Int.toNat_natCast, mask_bit lo hi k h h63]
  have := @BitVec.getLsbD_of_ge 64 w k; grind

theorem getBits_bit (w : Word) (lo hi j : Nat) (h : lo ≤ hi) (h63 : hi ≤ 63) :
    (getBits w lo hi).getLsbD j = (decide (j ≤ hi - lo) && w.getLsbD (lo + j)) := by
  have v : validRange lo hi := by simp only [validRange]; omega
  simp only [getBits, if_pos v, Int.toNat_natCast, field_getLsbD w hi lo j h63]

theorem getBits_value (w : Word) (lo hi : Nat) (h : lo ≤ hi) (h63 : hi ≤ 63) :
    (getBits w lo hi).toNat = w.toNat / 2 ^ lo % 2 ^ (hi - lo + 1) := by
  have v : validRange lo hi := by simp only [validRange]; omega
  simp only [getBits, if_pos v, Int.toNat_natCast, field_toNat w hi lo h h63]

theorem getByte_bit (w : Word) (n j : Nat) (h : n ≤ 7) :
    (getByte w n).getLsbD j = (decide (j < 8) && w.getLsbD (8 * n + j)) := by
  have v : validByte n := by simp only [validByte]; omega
  simp only [getByte, if_pos v, Int.toNat_natCast, field_getLsbD w (8 * n + 7) (8 * n) j (by omega)]
  congr 2; simp; omega

theorem getByte_value (w : Word) (n : Nat) (h : n ≤ 7) : (getByte w n).toNat = w.toNat / 2 ^ (8 * n) % 256 := by
  have v : validByte n := by simp only [validByte]; omega
  simp only [getByte, if_pos v, Int.toNat_natCast, field_toNat w (8 * n + 7) (8 * n) (by omega) (by omega)]
  rw [show 8 * n + 7 - 8 * n + 1 = 8 by omega]; norm_num

theorem setByte_bit (w : Word) (n k : Nat) (h : n ≤ 7) :
    (setByte w n).getLsbD k = (w.getLsbD k || decide (8 * n ≤ k) && decide (k ≤ 8 * n + 7)) := by
  have v : validByte n := by simp only [validByte]; omega
  simp only [setByte, if_pos v, BitVec.getLsbD_or, Int.toNat_natCast, mask_bit (8 * n) (8 * n + 7) k (by omega) (by omega)]

theorem predicateWord_true_iff (p : Bool) : predicateWord p = 1#64 ↔ p = true := by
  cases p <;> decide

theorem predicateWord_toNat (p : Bool) : (predicateWord p).toNat = p.toNat := by
  cases p <;> decide

theorem predicateWord_ite (p : Bool) : predicateWord p = if p then 1#64 else 0#64 := by
  cases p <;> decide

/-- A valid range of integers is a range of numbers. -/
theorem validRange_cases {lo hi : Int} (h : validRange lo hi) :
    ∃ l k : Nat, lo = l ∧ hi = k ∧ l ≤ k ∧ k ≤ 63 := by
  simp only [validRange] at h; exact ⟨lo.toNat, hi.toNat, by omega, by omega, by omega, by omega⟩

theorem copyBits_bit (a b : Word) (sl dl n k : Nat) (hn : 1 ≤ n) (hs : sl + n ≤ 64) (hd : dl + n ≤ 64) :
    (copyBits a b sl dl n).getLsbD k =
      if dl ≤ k ∧ k < dl + n then a.getLsbD (sl + (k - dl)) else b.getLsbD k := by
  have es : derivedHigh sl n = ((sl + n - 1 : Nat) : Int) := by simp only [derivedHigh]; omega
  have ed : derivedHigh dl n = ((dl + n - 1 : Nat) : Int) := by simp only [derivedHigh]; omega
  have v : validRange sl (derivedHigh sl n) ∧ validRange dl (derivedHigh dl n) := by
    rw [es, ed]; simp only [validRange]; omega
  simp only [copyBits, if_pos v, shiftLeft, BitVec.getLsbD_or, BitVec.getLsbD_shiftLeft, Int.toNat_natCast]
  rw [es, ed, clearBits_bit _ _ _ _ (by omega) (by omega), getBits_bit _ _ _ _ (by omega) (by omega)]
  have := @BitVec.getLsbD_of_ge 64 b k
  have := @BitVec.getLsbD_of_ge 64 a (sl + (k - dl))
  by_cases c : dl ≤ k ∧ k < dl + n
  · rw [if_pos c]
    have e1 : decide (k - dl ≤ sl + n - 1 - sl) = true := by simp; omega
    have e2 : decide (dl ≤ k) = true := by simp; omega
    have e3 : decide (k ≤ dl + n - 1) = true := by simp; omega
    have e4 : decide (k < 64) = true := by simp; omega
    have e5 : decide (k < dl) = false := by simp; omega
    rw [e1, e2, e3, e4, e5]; simp
  · rw [if_neg c]
    have e : (decide (dl ≤ k) && decide (k ≤ dl + n - 1)) = false := by simp; omega
    have e' : (decide (k < 64) && !decide (k < dl) && decide (k - dl ≤ sl + n - 1 - sl)) = false := by simp; omega
    rw [e, ← Bool.and_assoc, e']; simp

/-- `MemRead(addr, n)`, bit by bit (R42): bit `8k+j` is bit `j` of lane `addr+k`. -/
theorem memRead_bit (lanes : Lanes) (addr n : Nat) (h : addr + n ≤ 8) (k j : Nat) (hk : k < n) (hj : j < 8) :
    (memRead lanes addr n h).getLsbD (8 * k + j) = (lanes[addr + k]'(by omega)).getLsbD j := by
  induction n with
  | zero => omega
  | succ n ih =>
    simp only [memRead, BitVec.getLsbD_cast, BitVec.getLsbD_append]
    by_cases c : k < n
    · rw [if_pos (by omega)]; exact ih (by omega) c
    · have : k = n := by omega
      subst this
      rw [if_neg (by omega)]; congr 1; omega

end Sys2Proof.Machine
end

