-- ==== Sys2Proof/Laws/PerInstr.lean ====
section
/-! SUPPORT. The statements made per instruction: SelectNibble, that an instruction's encoding carries its select value in `CMD[291:288]` and that only that value decodes to it (R60, R63). -/

namespace Sys2Proof.Laws.SelectNibble

/-- The top four bits of the encoding are the instruction's select value, and a command decodes to the instruction only with
that value on `op`. -/
def Statement (i : Instr) : Prop :=
  (encode i).extractLsb' 288 4 = i.select ∧ ∀ c : Command, decode c = i → c.op = i.select

/-- What is common to the lemmas below: placing an instruction puts its select value on `op`. -/
theorem of_place (i : Instr) (h : (place i).op = i.select) : Statement i := by
  refine ⟨?_, fun c hc => by rw [← hc, select_decode]⟩
  rw [← h]
  ext k hk
  rw [BitVec.getElem_extractLsb', encode, toBundle_getLsbD]
  grind

theorem buildLong (bytes : Lanes) : Statement (.buildLong bytes) := of_place _ rfl

theorem getByte (source : Word) (byteNum : Idx) : Statement (.getByte source byteNum) := of_place _ rfl

theorem setByte (source : Word) (byteNum : Idx) : Statement (.setByte source byteNum) := of_place _ rfl

theorem getBits (source : Word) (low high : Idx) : Statement (.getBits source low high) := of_place _ rfl

theorem setBits (source : Word) (low high : Idx) : Statement (.setBits source low high) := of_place _ rfl

theorem clearBits (source : Word) (low high : Idx) : Statement (.clearBits source low high) := of_place _ rfl

theorem sign (source : Word) : Statement (.sign source) := of_place _ rfl

theorem addOverflow (op1 op2 : Word) : Statement (.addOverflow op1 op2) := of_place _ rfl

theorem subOverflow (op1 op2 : Word) : Statement (.subOverflow op1 op2) := of_place _ rfl

theorem copyBits (source dest : Word) (srcLow dstLow length : Idx) :
    Statement (.copyBits source dest srcLow dstLow length) := of_place _ rfl

theorem reserved0x3 : Statement .reserved0x3 := of_place _ rfl

theorem reserved0x7 : Statement .reserved0x7 := of_place _ rfl

theorem reserved0xB : Statement .reserved0xB := of_place _ rfl

theorem reserved0xD : Statement .reserved0xD := of_place _ rfl

theorem reserved0xE : Statement .reserved0xE := of_place _ rfl

theorem reserved0xF : Statement .reserved0xF := of_place _ rfl

end Sys2Proof.Laws.SelectNibble
end

