-- ==== Sys2Proof/Laws/State.lean ====
section
/-! SUPPORT. One lemma per field per update of State, each true by rfl, and what the output ports carry after each. -/

namespace Sys2Proof.Machine

/-- The unit holds nothing: its state has one value (R21). -/
theorem State.unit_eq (s t : State) : s.unit = t.unit := rfl

@[simp] theorem State.record_ports (o : Output) (s : State) : (s.record o).ports = s.ports := rfl

@[simp] theorem State.record_results (o : Output) (s : State) : (s.record o).results = s.results ++ [o] := rfl

@[simp] theorem State.record_output (o : Output) (s : State) : (s.record o).output = s.output := rfl

@[simp] theorem State.record_present (o : Output) (c : Command) (s : State) :
    (s.record o).present c = (s.present c).record o := rfl

@[simp] theorem State.present_ports (c : Command) (s : State) : (s.present c).ports = c := rfl

@[simp] theorem State.present_results (c : Command) (s : State) : (s.present c).results = s.results := rfl

@[simp] theorem State.present_output (c : Command) (s : State) : (s.present c).output = evaluate c := rfl

@[simp] theorem State.present_present (c d : Command) (s : State) : (s.present c).present d = s.present d := rfl

@[simp] theorem State.withFetchWord_results (s : State) (nbits w : Nat) : (s.withFetchWord nbits w).results = s.results := rfl

@[simp] theorem State.withFetchWord_ports (s : State) (nbits w : Nat) :
    (s.withFetchWord nbits w).ports = Command.ofBundle (bundleOfNat (lowBits nbits w)) := rfl

@[simp] theorem State.reset_ports : State.reset.ports = Command.zero := rfl

@[simp] theorem State.reset_results : State.reset.results = [] := rfl

end Sys2Proof.Machine
end

