-- ==== Sys2Proof/Laws/Step.lean ====
section
/-! SUPPORT. What answering an evaluation, running an instruction and a step can do, said once. -/

namespace Sys2Proof.Machine

/-- An assigned operation answers with its result on `r` and `ill = 0`, and no other state. -/
theorem drive_next_iff (v : Word) (s t : State) : drive v s = .next t ↔ t = s.record ⟨v, 0#1⟩ := by
  simp [drive, eq_comm]

/-- A reserved select value answers with `r = word(0)` and `ill = 1`, and no other state. -/
theorem driveReserved_next_iff (op : Sel) (s t : State) : driveReserved op s = .next t ↔ t = s.record ⟨0#64, 1#1⟩ := by
  simp [driveReserved, Config.reservedEvaluates, eq_comm]

/-- The outputs an instruction gives. -/
def result (i : Instr) : Output :=
  match i with
  | .buildLong bytes => ⟨buildLong bytes, 0#1⟩
  | .getByte a n => ⟨getByte a (indexValue n), 0#1⟩
  | .setByte a n => ⟨setByte a (indexValue n), 0#1⟩
  | .getBits a lo hi => ⟨getBits a (indexValue lo) (indexValue hi), 0#1⟩
  | .setBits a lo hi => ⟨setBits a (indexValue lo) (indexValue hi), 0#1⟩
  | .clearBits a lo hi => ⟨clearBits a (indexValue lo) (indexValue hi), 0#1⟩
  | .sign a => ⟨sign a, 0#1⟩
  | .addOverflow a b => ⟨addOverflow a b, 0#1⟩
  | .subOverflow a b => ⟨subOverflow a b, 0#1⟩
  | .copyBits a b sl dl n => ⟨copyBits a b (indexValue sl) (indexValue dl) (indexValue n), 0#1⟩
  | .reserved0x3 => ⟨0#64, 1#1⟩
  | .reserved0x7 => ⟨0#64, 1#1⟩
  | .reserved0xB => ⟨0#64, 1#1⟩
  | .reserved0xD => ⟨0#64, 1#1⟩
  | .reserved0xE => ⟨0#64, 1#1⟩
  | .reserved0xF => ⟨0#64, 1#1⟩

/-- Everything an instruction can do: it answers with `result i`. -/
theorem exec_eq_result (i : Instr) (s : State) : exec i s = .next (s.record (result i)) := by
  cases i <;> rfl

/-- The inversion of `exec_eq_result`. -/
theorem exec_next_iff (i : Instr) (s t : State) : exec i s = .next t ↔ t = s.record (result i) := by
  rw [exec_eq_result]; simp [eq_comm]

/-- Everything a step can do. -/
theorem step_next_iff (s t : State) : step s = .next t ↔ t = s.record (result (decode s.ports)) :=
  exec_next_iff _ s t

end Sys2Proof.Machine
end

