-- ==== Sys2Proof/Laws/Written.lean ====
section
/-! SUPPORT. What reading each kind of written argument answers, said once (R65, R69, R144). -/

namespace Sys2Proof.Machine

theorem wordArg_isWord (w : Word) : (wordArg w).isWord = true := by
  have := w.isLt; simpa [wordArg, Arg.isWord, Config.xlen] using this

theorem indexArg_isIndex (i : Idx) : (indexArg i).isIndex = true := by
  have := @BitVec.toInt_lt 32 i
  have := @BitVec.le_toInt 32 i
  simp only [indexArg, Arg.isIndex, Config.idxw, decide_eq_true_eq]
  omega

/-- A written Word is read back. -/
theorem toWord_wordArg (w : Word) : Arg.toWord (wordArg w) = .ok w := by
  show (if (wordArg w).isWord = true then Except.ok (BitVec.ofNat 64 w.toNat) else _) = _
  rw [if_pos (wordArg_isWord w)]; simp

/-- A written index is read back, negative values included. -/
theorem toIndex_indexArg (i : Idx) : Arg.toIndex (indexArg i) = .ok i := by
  show (if (indexArg i).isIndex = true then Except.ok (BitVec.ofInt 32 i.toInt) else _) = _
  rw [if_pos (indexArg_isIndex i)]; simp

/-- A byte list of another length than 8 is refused. -/
theorem toLanes_of_length_ne (bytes : List Nat) (h : bytes.length ≠ 8) :
    Arg.toLanes (.list bytes) = .error .notEightBytes := by
  unfold Arg.toLanes
  split
  · next h' => cases h'; exact absurd rfl h
  · rfl

end Sys2Proof.Machine
end

