-- ==== Sys2Proof/Tests/Slice0.lean ====
section
/-! SUPPORT. Tests. Words, arguments and expected results are those of 95_test_vectors.md (ids S.., V-..) and of the worked examples of the rules; witness_ theorems meet the hypotheses of an obligation, or of one of its clauses, at a boundary. -/

namespace Sys2Proof.Tests

open Sys2Proof Sys2Proof.Machine

/-- The latest outputs the host got in a next state; none for a fault or a refusal. -/
def outputs (o : Host.Outcome State Fault Refusal) : Option Output :=
  match o with
  | .next t => t.results.getLast?
  | .fault _ => none
  | .refused _ => none

/-- The outputs of running one instruction after reset. -/
def drives (i : Instr) : Option Output :=
  outputs (exec i State.reset)

/-- The outputs of the step after the bundle is presented to the unit after reset. -/
def evaluates (w : Nat) : Option Output :=
  outputs (step (State.reset.withFetchWord 292 w))

/-! ### Decoding: a word of every row, written `op i2 i1 i0 b a lanes` (R60) -/

theorem test_decode_buildLong : decodeTableWord 292 -- S1
    0x0000000000000000000000000000000000000000000000000000000008877665544332211
    = some (.buildLong #v[0x11#8, 0x22#8, 0x33#8, 0x44#8, 0x55#8, 0x66#8, 0x77#8, 0x88#8]) := by decide

theorem test_decode_getByte : decodeTableWord 292 -- V-GY-9
    0x1000000000000000020000000000000000000000012345678214365870000000000000000
    = some (.getByte 0x1234567821436587#64 0x20000000#32) := by decide

theorem test_decode_setByte : decodeTableWord 292 -- V-UN-5: the unused ports i1 and b are not read
    0x2000000000000000700000000ffffffffffffffff11223344556677880000000000000000
    = some (.setByte 0x1122334455667788#64 0#32) := by decide

theorem test_decode_getBits : decodeTableWord 292 -- the worked encoding of R69
    0x4000000000000000700000000000000000000000011223344556677880000000000000000
    = some (.getBits 0x1122334455667788#64 0#32 7#32) := by decide

theorem test_decode_setBits : decodeTableWord 292 -- V-SB-6
    0x50000000000000007ffffffff000000000000000011223344556677880000000000000000
    = some (.setBits 0x1122334455667788#64 (BitVec.ofInt 32 (-1)) 7#32) := by decide

theorem test_decode_clearBits : decodeTableWord 292 -- V-CB-2
    0x6000000000000003f0000003c000000000000000011223344556677880000000000000000
    = some (.clearBits 0x1122334455667788#64 60#32 63#32) := by decide

theorem test_decode_sign : decodeTableWord 292 -- V-UN-3
    0x8000000000000003f0000003f800000000000000011223344556677880000000000000000
    = some (.sign 0x1122334455667788#64) := by decide

theorem test_decode_addOverflow : decodeTableWord 292 -- V-ADD-1: op1 on a, op2 on b
    0x900000000000000000000000000000000000000017fffffffffffffff0000000000000000
    = some (.addOverflow 0x7fffffffffffffff#64 1#64) := by decide

theorem test_decode_subOverflow : decodeTableWord 292 -- S5
    0xa000000000000000000000000800000000000000300000000000000040000000000000000
    = some (.subOverflow 4#64 0x8000000000000003#64) := by decide

theorem test_decode_copyBits : decodeTableWord 292 -- V-CP-1
    0xc000000080000003800000008887766554433221111223344556677880000000000000000
    = some (.copyBits 0x1122334455667788#64 0x8877665544332211#64 8#32 56#32 8#32) := by decide

theorem test_decode_reserved0x3 : decodeTableWord 292 -- V-RS-1
    0x3000000100000000800000008887766554433221111223344556677888877665544332211 = some .reserved0x3 := by decide

theorem test_decode_reserved0x7 : decodeTableWord 292 -- V-RS-2
    0x7000000100000000800000008887766554433221111223344556677888877665544332211 = some .reserved0x7 := by decide

theorem test_decode_reserved0xB : decodeTableWord 292 -- V-RS-3
    0xb000000100000000800000008887766554433221111223344556677888877665544332211 = some .reserved0xB := by decide

theorem test_decode_reserved0xD : decodeTableWord 292 -- V-RS-4
    0xd000000100000000800000008887766554433221111223344556677888877665544332211 = some .reserved0xD := by decide

theorem test_decode_reserved0xE : decodeTableWord 292 -- V-RS-5
    0xe000000100000000800000008887766554433221111223344556677888877665544332211 = some .reserved0xE := by decide

theorem test_decode_reserved0xF : decodeTableWord 296 -- V-RS-6, in whole bytes
    0xf000000100000000800000008887766554433221111223344556677888877665544332211 = some .reserved0xF := by decide

theorem test_decode_refuses_wider : decodeTableWord 296 -- bit 292 set: no command
    0x1c000000080000003800000008887766554433221111223344556677880000000000000000 = none := by decide

/-! ### The instructions, two tests each: a scenario in the document's own text where it has one, and a corner -/

theorem test_buildLong_S1 : scenarioHolds
    "buildLong([0x11,0x22,0x33,0x44,0x55,0x66,0x77,0x88]) == 0x8877665544332211".toList = true := by decide

theorem test_buildLong_lane7 : drives (.buildLong #v[0#8, 0#8, 0#8, 0#8, 0#8, 0#8, 0#8, 0x80#8]) -- V-BL-4
    = some ⟨0x8000000000000000#64, 0#1⟩ := by decide

theorem test_getByte_S7b : scenarioHolds "getByte(0x1234567821436587, 9) == 0".toList = true := by decide

theorem test_getByte_top : drives (.getByte 0x1234567821436587#64 7#32) = some ⟨0x12#64, 0#1⟩ := by decide -- V-GY-4

theorem test_setByte_S7a : scenarioHolds "setByte(0x1122334455667788, 8) == 0x1122334455667788".toList = true := by decide

theorem test_setByte_top : drives (.setByte 0x1122334455667788#64 7#32) -- V-SY-3
    = some ⟨0xff22334455667788#64, 0#1⟩ := by decide

theorem test_getBits_S2a : scenarioHolds "getBits(0x1122334455667788, 0, 7) == 0x88".toList = true := by decide

theorem test_getBits_not_truncated : drives (.getBits 0x1122334455667788#64 64#32 71#32) -- V-GB-14
    = some ⟨0#64, 0#1⟩ := by decide

theorem test_setBits_S3a : scenarioHolds "setBits(0x1122334455667788, 0, 7) == 0x11223344556677ff".toList = true := by decide

theorem test_setBits_full_width : drives (.setBits 0x1122334455667788#64 0#32 63#32) -- V-SB-3
    = some ⟨0xffffffffffffffff#64, 0#1⟩ := by decide

theorem test_clearBits_low_byte : scenarioHolds -- the worked example of R92
    "clearBits(0x1122334455667788, 0, 7) == 0x1122334455667700".toList = true := by decide

theorem test_clearBits_inverted : drives (.clearBits 0x1122334455667788#64 0x3f#32 0#32) -- V-CB-5
    = some ⟨0x1122334455667788#64, 0#1⟩ := by decide

theorem test_sign_min : drives (.sign 0x8000000000000000#64) = some ⟨1#64, 0#1⟩ := by decide -- V-SG-4

theorem test_sign_alias : scenarioHolds "isNegative(0x7fffffffffffffff) == 0".toList = true := by decide -- V-SG-3, R70

theorem test_addOverflow_S4a : scenarioHolds
    "addOverflow(0x8000000000000000, 0x8000000000000000) == true".toList = true := by decide

theorem test_addOverflow_exact_max : drives (.addOverflow 0x3fffffffffffffff#64 0x4000000000000000#64) -- V-ADD-8
    = some ⟨0#64, 0#1⟩ := by decide

theorem test_subOverflow_order : drives (.subOverflow 0x8000000000000000#64 0#64) -- V-SUB-7 separates the orders
    = some ⟨1#64, 0#1⟩ := by decide

theorem test_subOverflow_alias : scenarioHolds -- V-SUB-11, R70
    "subtractOverflow(0x8000000000000000, 0xffffffffffffffff) == false".toList = true := by decide

theorem test_copyBits_S6 : scenarioHolds
    "copyBits(0x1122334455667788, 0x8877665544332211, 8, 8, 0x10) == 0x8877665544667711".toList = true := by decide

theorem test_copyBits_overlap : drives -- V-CP-15
    (.copyBits 0x1122334455667788#64 0x1122334455667788#64 0#32 4#32 60#32) = some ⟨0x1223344556677888#64, 0#1⟩ := by decide

theorem test_reserved0x3 : drives .reserved0x3 = some ⟨0#64, 1#1⟩ := by decide -- V-RS-1

theorem test_reserved0x7 : drives .reserved0x7 = some ⟨0#64, 1#1⟩ := by decide -- V-RS-2

theorem test_reserved0xB : drives .reserved0xB = some ⟨0#64, 1#1⟩ := by decide -- V-RS-3

theorem test_reserved0xD : drives .reserved0xD = some ⟨0#64, 1#1⟩ := by decide -- V-RS-4

theorem test_reserved0xE : drives .reserved0xE = some ⟨0#64, 1#1⟩ := by decide -- V-RS-5

theorem test_reserved0xF : drives .reserved0xF = some ⟨0#64, 1#1⟩ := by decide -- V-RS-6

/-! ### A whole step -/

theorem test_step_ignores_unused_ports : evaluates -- V-UN-1
    0x4ffffffff0000000700000000ffffffffffffffff1122334455667788ffffffffffffffff = some ⟨0x88#64, 0#1⟩ := by decide

theorem test_step_reserved : evaluates -- V-RS-3
    0xb000000100000000800000008887766554433221111223344556677888877665544332211 = some ⟨0#64, 1#1⟩ := by decide

theorem test_step_after_reset : outputs (step State.reset) = some State.reset.output := by decide -- R28

/-! ### The checks of WellFormed.lean, each on an ill-formed call -/

theorem test_smoke_unknown_name : (Call.wellFormed ⟨"mask", [.dec 0, .dec 7]⟩) = false ∧ -- R70: no command
    assemble ⟨"mask", [.dec 0, .dec 7]⟩ = .error .unknownName := by decide

theorem test_smoke_name_case : (Call.wellFormed ⟨"getbyte", [.hex 1, .dec 0]⟩) = false := by decide -- R69: case-sensitive

theorem test_smoke_missing_argument : (Call.wellFormed ⟨"getBits", [.hex 1, .dec 0]⟩) = false := by decide

theorem test_smoke_extra_argument : (Call.wellFormed ⟨"sign", [.hex 1, .dec 0]⟩) = false := by decide

theorem test_smoke_word_too_wide : (Call.wellFormed ⟨"sign", [.hex (2 ^ 64)]⟩) = false := by decide

theorem test_smoke_word_in_decimal : (Call.wellFormed ⟨"sign", [.dec 5]⟩) = false := by decide -- R69: a Word is hexadecimal

theorem test_smoke_index_too_large : (Call.wellFormed ⟨"getByte", [.hex 1, .dec (2 ^ 31)]⟩) = false := by decide

theorem test_smoke_index_too_small : (Call.wellFormed ⟨"getByte", [.hex 1, .dec (-2 ^ 31 - 1)]⟩) = false := by decide

theorem test_smoke_index_hex_too_large : (Call.wellFormed ⟨"getByte", [.hex 1, .hex (2 ^ 31)]⟩) = false := by decide

theorem test_smoke_seven_bytes : (Call.wellFormed ⟨"buildLong", [.list [1, 2, 3, 4, 5, 6, 7]]⟩) = false := by decide -- R144

theorem test_smoke_byte_too_wide : (Call.wellFormed ⟨"buildLong", [.list [256, 2, 3, 4, 5, 6, 7, 8]]⟩) = false := by decide

theorem test_smoke_well_formed : (Call.wellFormed ⟨"getByte", [.hex (2 ^ 64 - 1), .dec (-2 ^ 31)]⟩) = true := by decide

/-! ### Witnesses: concrete values that meet the hypotheses of an obligation, clause by clause -/

theorem witness_CanonicalEncodingIsUnique : -- the canonical command of a copyBits meets every hypothesis
    let c := place (.copyBits 1#64 2#64 3#32 4#32 5#32)
    decode c = .copyBits 1#64 2#64 3#32 4#32 5#32 ∧ c.op ≠ 0x0#4 ∧ c.lanes = Command.zero.lanes ∧
    c.op ∉ [0x0#4, 0x3#4, 0x7#4, 0xB#4, 0xD#4, 0xE#4, 0xF#4] ∧ c.op ∈ [0x9#4, 0xA#4, 0xC#4] := by decide

theorem witness_CanonicalEncodingIsUnique_reserved :
    let c := place .reserved0xF
    decode c = .reserved0xF ∧ c.a = 0#64 ∧ c.b = 0#64 ∧ c.i0 = 0#32 ∧ c.i1 = 0#32 ∧ c.i2 = 0#32 ∧
    c.lanes = Command.zero.lanes := by decide

theorem witness_DecoderFollowsTheSelectTable_wide : -- 2^292, the first number that is no command
    0x10000000000000000000000000000000000000000000000000000000000000000000000000 >>> 292 ≠ 0 := by decide

theorem witness_BuildLong_lane : (7 : Nat) < 8 ∧ (Command.zero.op = 0x0#4) := by decide

theorem witness_ByteIndex_clauses : -- GetByte, SetByte: the ends of the valid range, and what stands just outside it
    (0#32 : Idx).toInt = (0 : Nat) ∧ (7#32 : Idx).toInt = (7 : Nat) ∧
    ¬(0 ≤ (8#32 : Idx).toInt ∧ (8#32 : Idx).toInt ≤ 7) ∧
    ¬(0 ≤ (0xffffffff#32 : Idx).toInt ∧ (0xffffffff#32 : Idx).toInt ≤ 7) := by decide

theorem witness_Range_clauses : -- GetBits, SetBits, ClearBits: full width and one bit; inverted, negative, 64
    (0#32 : Idx).toInt = (0 : Nat) ∧ (63#32 : Idx).toInt = (63 : Nat) ∧ (0 : Nat) ≤ 63 ∧
    ¬(0 ≤ (63#32 : Idx).toInt ∧ (63#32 : Idx).toInt ≤ (0#32 : Idx).toInt ∧ (0#32 : Idx).toInt ≤ 63) ∧
    ¬(0 ≤ (0xffffffff#32 : Idx).toInt ∧ (0xffffffff#32 : Idx).toInt ≤ (7#32 : Idx).toInt ∧ (7#32 : Idx).toInt ≤ 63) ∧
    ¬(0 ≤ (0#32 : Idx).toInt ∧ (0#32 : Idx).toInt ≤ (64#32 : Idx).toInt ∧ (64#32 : Idx).toInt ≤ 63) := by decide

theorem witness_CopyBits_clauses : -- 64 bits from 0 to 0; a length of 0; one bit past the end
    (64#32 : Idx).toInt = (64 : Nat) ∧ (1 : Nat) ≤ 64 ∧ 0 + 64 ≤ 64 ∧
    ¬validRange (0#32 : Idx).toInt ((0#32 : Idx).toInt + (0#32 : Idx).toInt - 1) ∧
    ¬validRange (60#32 : Idx).toInt ((60#32 : Idx).toInt + (5#32 : Idx).toInt - 1) := by decide

theorem witness_Select_clauses : -- every select value is on some command's op port
    ∀ op : Sel, ({ Command.zero with op := op } : Command).op = op := fun _ => rfl

theorem witness_FallbackPolicies_getByte : evaluates -- V-GY-5
    0x1000000000000000000000008000000000000000012345678214365870000000000000000 = some ⟨0#64, 0#1⟩ ∧
    ¬(0 ≤ (8#32 : Idx).toInt ∧ (8#32 : Idx).toInt ≤ 7) := by decide

theorem witness_FallbackPolicies_setByte : evaluates -- V-SY-5
    0x20000000000000000ffffffff000000000000000011223344556677880000000000000000 = some ⟨0x1122334455667788#64, 0#1⟩ := by
  decide

theorem witness_FallbackPolicies_getBits : evaluates -- V-GB-10
    0x4000000000000004000000000000000000000000011223344556677880000000000000000 = some ⟨0#64, 0#1⟩ := by decide

theorem witness_FallbackPolicies_setBits : evaluates -- V-SB-7
    0x5000000000000004000000000000000000000000011223344556677880000000000000000 = some ⟨0x1122334455667788#64, 0#1⟩ := by
  decide

theorem witness_FallbackPolicies_clearBits : evaluates -- V-CB-6
    0x60000000000000007ffffffff000000000000000011223344556677880000000000000000 = some ⟨0x1122334455667788#64, 0#1⟩ := by
  decide

theorem witness_FallbackPolicies_copyBits : evaluates -- V-CP-9: source range valid, destination range invalid
    0xc000000050000003c00000000887766554433221111223344556677880000000000000000 = some ⟨0x8877665544332211#64, 0#1⟩ := by
  decide

theorem witness_Mask_and_MemRead : (0 : Nat) ≤ 63 ∧ (63 : Nat) ≤ 63 ∧ (0 + 8 ≤ 8) ∧ (7 + 1 ≤ 8) := by decide

theorem witness_validRange : -- the laws of 44_laws.md and of R112: full width, one bit at either end
    validRange 0 63 ∧ validRange 63 63 ∧ validRange 0 0 ∧ ¬validRange 1 64 ∧ ¬validRange 0 (-1) := by decide

theorem witness_IdentityCopy_elsewhere : (1 : Int) ≠ 0 ∧ -- V-CP-5
    drives (.copyBits 0x1122334455667788#64 0x8877665544332211#64 1#32 1#32 64#32) = some ⟨0x8877665544332211#64, 0#1⟩ := by
  decide

theorem witness_CopiedFieldReadsBack : validRange 60 (60 + 4 - 1) ∧ validRange 0 (0 + 4 - 1) := by decide

theorem witness_CopyBitsCornerCases_fields : -- a field of zeros and a field of ones in valid ranges
    validRange 0 (0 + 64 - 1) ∧ getBits 0#64 0 (0 + 64 - 1) = 0#64 ∧
    (getBits 0xffffffffffffffff#64 0 (0 + 64 - 1)).toNat = 2 ^ 64 - 1 := by decide

theorem witness_ByteOperations : (0 : Int) ≤ 0 ∧ (0 : Int) ≤ 7 ∧ (7 : Int) ≤ 7 := by decide

theorem witness_SubOverflow_signs : -- equal signs, different signs, both signs of op2
    sign 1#64 = sign 2#64 ∧ sign 1#64 ≠ sign 0x8000000000000000#64 ∧ 0 ≤ (0#64 : Word).toInt ∧
    ¬0 ≤ (0xffffffffffffffff#64 : Word).toInt := by decide

/-- `exec` and `step` answer a next state: the hypotheses "answers next t" are met after reset. -/
theorem witness_exec_next : ∃ t, exec (.sign 0x8000000000000000#64) State.reset = .next t ∧
    t.results = [⟨1#64, 0#1⟩] := ⟨_, rfl, by decide⟩

theorem witness_step_next : ∃ t, step State.reset = .next t ∧ t.output = State.reset.output := ⟨_, rfl, by decide⟩

theorem witness_StepRunsTheDecodedInstruction : decode State.reset.ports = .buildLong Command.zero.lanes ∧
    decodeTableWord 292 (encode .reserved0x3).toNat = some .reserved0x3 := by decide

theorem witness_UnusedPorts : -- two commands that differ on unused ports only, both stepped
    let s := State.reset.present { Command.zero with op := 0x8#4, a := 5#64 }
    let s' := State.reset.present { Command.zero with op := 0x8#4, a := 5#64, b := 1#64, i0 := 2#32, i1 := 3#32, i2 := 4#32 }
    s.ports.op = s'.ports.op ∧ s.ports.a = s'.ports.a ∧ s.ports ≠ s'.ports ∧ outputs (step s) = some ⟨0#64, 0#1⟩ ∧
    outputs (step s') = some ⟨0#64, 0#1⟩ := by decide

theorem witness_UnusedPorts_lanes : -- format L: the lanes agree, everything else differs
    let s := State.reset
    let s' := State.reset.present { Command.zero with a := 1#64, b := 1#64, i0 := 2#32, i1 := 3#32, i2 := 4#32 }
    s.ports.op = 0x0#4 ∧ s.ports.lanes = s'.ports.lanes ∧ s.ports ≠ s'.ports ∧ outputs (step s) = outputs (step s') := by decide

theorem witness_UnusedPorts_copyBits : -- format C: all but the lanes agree
    let s := State.reset.present { Command.zero with op := 0xC#4, i2 := 1#32 }
    let s' := State.reset.present { Command.zero with op := 0xC#4, i2 := 1#32, lanes := #v[1#8, 0#8, 0#8, 0#8, 0#8, 0#8, 0#8, 0#8] }
    s.ports.op = s'.ports.op ∧ s.ports.a = s'.ports.a ∧ s.ports.b = s'.ports.b ∧ s.ports.i0 = s'.ports.i0 ∧
    s.ports.i1 = s'.ports.i1 ∧ s.ports.i2 = s'.ports.i2 ∧ s.ports ≠ s'.ports := by decide

theorem witness_NarrowResults : -- a valid range on the ports of a getBits command; a getByte; a predicate
    let s := State.reset.present { Command.zero with op := 0x4#4, a := 3#64, i1 := 63#32 }
    s.ports.op = 0x4#4 ∧ validRange s.ports.i0.toInt s.ports.i1.toInt ∧ outputs (step s) = some ⟨3#64, 0#1⟩ ∧
    (0xA#4 : Sel) ∈ [0x8#4, 0x9#4, 0xA#4] := by decide

theorem witness_StepForgets : -- two states with the same command after different runs
    let s := State.reset.record ⟨1#64, 1#1⟩
    s.ports = State.reset.ports ∧ s ≠ State.reset := by decide

theorem witness_Run_last : -- a run with a last command, whose outputs the ports then carry
    (Command.zero ∈ [Command.zero].getLast?) ∧
    outputs (runHost (fixedProgram [Command.zero]) State.reset) = some ⟨0#64, 0#1⟩ := by decide

theorem witness_HostRun_same_record : -- two states that differ on the ports and not in the record
    let s := State.reset.present { Command.zero with op := 0xF#4 }
    s.results = State.reset.results ∧ s ≠ State.reset ∧ s.output ≠ State.reset.output := by decide

/-- A record that holds the outputs of a reserved select and of `buildLong`: both are evaluations. -/
theorem witness_ResultsAreEvaluations :
    ResultsAreEvaluations ((State.reset.record ⟨0#64, 1#1⟩).record ⟨0#64, 0#1⟩) := by
  intro o ho
  rw [show ((State.reset.record ⟨0#64, 1#1⟩).record ⟨0#64, 0#1⟩).results = [⟨0#64, 1#1⟩, ⟨0#64, 0#1⟩] from rfl,
    List.mem_pair] at ho
  rcases ho with rfl | rfl
  · exact ⟨{ Command.zero with op := 0x3#4 }, by decide⟩
  · exact ⟨Command.zero, by decide⟩

theorem witness_ResultsAreEvaluations_run : -- a run from a record that meets the invariant
    ResultsAreEvaluations State.reset ∧ (runHost [] State.reset = .next State.reset) :=
  ⟨fun _ h => absurd h (List.not_mem_nil), rfl⟩

theorem test_outputs_follow_the_ports : -- R28, V-UN-1: before any step
    (State.reset.withFetchWord 292
      0x4ffffffff0000000700000000ffffffffffffffff1122334455667788ffffffffffffffff).output = ⟨0x88#64, 0#1⟩ := by decide

theorem witness_WrittenCall : writtenCall (.sign 5#64) = some ⟨"sign", [.hex 5]⟩ ∧ [1, 2, 3].length ≠ 8 := by decide

end Sys2Proof.Tests
end

/-! ### Mask, signed values and the input ports -/

namespace Sys2Proof.Machine

/-- The value of a mask (R9): the number it is made from fits a Word, so nothing is cut off, the full width included. -/
theorem mask_toNat (lo hi : Nat) (h63 : hi ≤ 63) : (mask lo hi).toNat = 2 ^ (hi + 1) - 2 ^ lo := by
  rw [mask, BitVec.toNat_ofNat, Nat.mod_eq_of_lt (mask_value_lt lo hi h63)]

/-- Settles O18: the value is not reduced modulo `2^64`, and the bits are those of `mask_bit`. -/
theorem maskHasExactlyTheBitsOfItsRange : Obligations.MaskHasExactlyTheBitsOfItsRange := by
  intro lo hi h h63
  refine ⟨mask_toNat lo hi h63, fun k => ?_⟩
  rw [mask_bit lo hi k h h63, Bool.decide_and]

/-- The two's-complement formula (G1) at every width: the top bit weighs `2^(n+1)` less than in the unsigned value. -/
theorem toInt_eq_toNat_sub_topBit {n : Nat} (v : BitVec (n + 1)) :
    v.toInt = (v.toNat : Int) - 2 ^ (n + 1) * (v.getLsbD n).toNat := by
  have top : v.msb = v.getLsbD n := BitVec.msb_eq_getLsbD_last v
  rw [BitVec.toInt_eq_msb_cond, top]
  cases v.getLsbD n <;> simp

/-- Settles O19: the formula and the library's bounds on `BitVec.toInt`, at widths 64 and 32. -/
theorem signedValuesFollowTheFormula : Obligations.SignedValuesFollowTheFormula :=
  ⟨fun w => ⟨toInt_eq_toNat_sub_topBit w, BitVec.le_toInt w, Int.le_sub_one_of_lt (BitVec.toInt_lt (x := w))⟩,
    fun i => ⟨toInt_eq_toNat_sub_topBit i, BitVec.le_toInt i, Int.le_sub_one_of_lt (BitVec.toInt_lt (x := i))⟩⟩

/-- Settles O33: an instruction answers only with `record` of its outputs, which keeps the ports and adds one pair. -/
theorem noInstructionChangesAnInputPort : Obligations.NoInstructionChangesAnInputPort := by
  intro i s t h
  obtain rfl := (exec_next_iff i s t).mp h
  exact ⟨State.record_ports (result i) s, result i, State.record_results (result i) s⟩

end Sys2Proof.Machine

/-! ### The step as the evaluation of the ports, the output ports and the host's record -/

namespace Sys2Proof.Machine

/-- The decoder and the meanings together compute `Eval`: one row of the table of R63 at a time. -/
theorem result_decode (c : Command) : result (decode c) = evaluate c := by
  rcases sel_cases c.op with h | h | h | h | h | h | h | h | h | h | h | h | h | h | h | h <;>
    simp [decode, result, evaluate, h]

/-- `Eval` of an instruction's canonical command (R62) is what the instruction gives. -/
theorem evaluate_place (i : Instr) : evaluate (place i) = result i := by
  rw [← result_decode, decode_place]

/-- Everything a step can do, without the decoder: the host gets what the output ports carry (R26, R28). -/
theorem step_eq_record_output (s : State) : step s = .next (s.record s.output) :=
  (step_next_iff s _).mpr (by rw [result_decode, State.output])

/-- The inversion of `step_eq_record_output`. -/
theorem step_next_iff_record_output (s t : State) : step s = .next t ↔ t = s.record s.output := by
  rw [step_eq_record_output]; simp [eq_comm]

/-- Every state answers what its output ports carry. -/
theorem answers_output (s : State) : Answers s s.output :=
  ⟨rfl, step_eq_record_output s⟩

/-- The output ports follow the input ports alone (R21, R28). -/
theorem State.output_congr {s s' : State} (h : s.ports = s'.ports) : s.output = s'.output :=
  congrArg evaluate h

/-- Presenting a command by the number of its bundle is presenting it by its ports. -/
theorem State.withFetchWord_bundle (s : State) (w : Bundle) :
    s.withFetchWord 292 w.toNat = s.present (Command.ofBundle w) := by
  rw [State.withFetchWord, lowBits_bundle, bundleOfNat_toNat]

/-- Where the host presents no command, the run goes on from the same state. -/
theorem runHost_cons_of_none {choose : List Output → Option Command} {s : State} (h : choose s.results = none)
    (rest : HostProgram) : runHost (choose :: rest) s = runHost rest s := by
  simp [runHost, h]

/-- Where the host presents a command, the run goes on with the command on the ports and its evaluation in the record. -/
theorem runHost_cons_of_some {choose : List Output → Option Command} {s : State} {c : Command}
    (h : choose s.results = some c) (rest : HostProgram) :
    runHost (choose :: rest) s = runHost rest ((s.present c).record (evaluate c)) := by
  simp [runHost, h, step_eq_record_output]

/-- The induction over a host's program, once: what each presented and evaluated command keeps, a whole run keeps. -/
theorem runHost_keeps {P : State → Prop} (keeps : ∀ s c, P s → P ((s.present c).record (evaluate c)))
    (program : HostProgram) {s t : State} (hs : P s) (h : runHost program s = .next t) : P t := by
  induction program generalizing s with
  | nil => cases h; exact hs
  | cons choose rest ih =>
    cases hc : choose s.results with
    | none => exact ih hs (runHost_cons_of_none hc rest ▸ h)
    | some c => exact ih (keeps s c hs) (runHost_cons_of_some hc rest ▸ h)

/-- Presenting a command leaves the record, and so the invariant, alone. -/
theorem ResultsAreEvaluations.present {s : State} (hs : ResultsAreEvaluations s) (c : Command) :
    ResultsAreEvaluations (s.present c) := hs

/-- Adding the evaluation of a command to the record keeps the invariant. -/
theorem ResultsAreEvaluations.record {s : State} (hs : ResultsAreEvaluations s) (c : Command) :
    ResultsAreEvaluations (s.record (evaluate c)) := by
  intro o ho
  rw [State.record_results, List.mem_append, List.mem_singleton] at ho
  rcases ho with old | rfl
  · exact hs o old
  · exact ⟨c, rfl⟩

/-- An instruction that gives `ill = 1` is a reserved select, and gives `r = word(0)` (R66). -/
theorem result_r_of_ill (i : Instr) : (result i).ill = 1#1 → (result i).r = 0#64 := by
  cases i <;> simp [result]

/-- The pairs `Eval` takes as values. Any Word comes with `ill = 0`: `setByte` of a byte outside the Word gives its source. -/
theorem exists_evaluate_eq_iff (o : Output) : (∃ c, evaluate c = o) ↔ (o.ill = 1#1 → o.r = 0#64) := by
  constructor
  · rintro ⟨c, rfl⟩
    rw [← result_decode]
    exact result_r_of_ill (decode c)
  · obtain ⟨r, ill⟩ := o
    intro h
    rcases BitVec.eq_zero_or_eq_one ill with rfl | rfl
    · exact ⟨place (.setByte r 8#32), by rw [evaluate_place, result, setByte, if_neg (by decide)]⟩
    · obtain rfl : r = 0#64 := h rfl
      exact ⟨place .reserved0x3, evaluate_place .reserved0x3⟩

/-- Settles O48: a step adds the evaluation of the command on the ports, a run is such steps, and the pairs that are
evaluations are those of `exists_evaluate_eq_iff`. -/
theorem everyStepKeepsResultsEvaluations : Obligations.EveryStepKeepsResultsEvaluations := by
  refine ⟨fun s t hs h => ?_, fun program s t hs h => ?_, fun s => ?_⟩
  · obtain rfl := (step_next_iff_record_output s t).mp h
    exact hs.record s.ports
  · exact runHost_keeps (fun _ c hu => (hu.present c).record c) program hs h
  · simp only [ResultsAreEvaluations, exists_evaluate_eq_iff]

/-- Settles O36: `step_eq_record_output`, with the record and the output ports written out. -/
theorem stepIsTheEvaluationOfThePorts : Obligations.StepIsTheEvaluationOfThePorts :=
  step_eq_record_output

/-- Settles O37: a step only adds a pair to the record, which leaves the output ports as they are. -/
theorem everyStepAnswersTheOutputPorts : Obligations.EveryStepAnswersTheOutputPorts := by
  intro s t h
  obtain rfl := (step_next_iff_record_output s t).mp h
  have same : (s.record s.output).output = s.output := State.record_output s.output s
  exact ⟨same, by rw [same, State.record_results], step_eq_record_output _⟩

/-- Settles O49: the output ports are computed from the command presented, and `evaluate_place` says what they carry for a
canonical command. -/
theorem outputsFollowThePortsAtEveryMoment : Obligations.OutputsFollowThePortsAtEveryMoment := by
  refine ⟨fun c s => ⟨rfl, rfl⟩, fun w s => ?_, fun s s' h => ?_, fun i s => ?_⟩
  · rw [State.withFetchWord_bundle, State.present_output]
  · have same : s.output = s'.output := State.output_congr h
    exact ⟨congrArg Output.r same, congrArg Output.ill same⟩
  · rw [State.present_output, evaluate_place]
    exact exec_eq_result i s

/-- Settles O35: a step is `exec` of the decoded command by definition, and the number of a bundle decodes to what the
bundle selects. -/
theorem stepRunsTheDecodedInstruction : Obligations.StepRunsTheDecodedInstruction := by
  refine ⟨fun s i h => by rw [step, h], fun s w i h => ⟨?_, State.withFetchWord_results s 292 w.toNat⟩⟩
  have decoded : decode (Command.ofBundle w) = i := by
    simpa only [decodeTableWord_bundle, Option.some.injEq] using h
  rw [State.withFetchWord_bundle, step, State.present_ports, decoded]

/-- Settles O38: the command of zeros is `buildLong` of eight zero bytes, and the record has no pair. -/
theorem resetOutputsMatchPorts : Obligations.ResetOutputsMatchPorts :=
  ⟨State.reset_ports, by decide, rfl, State.reset_results, fun _ h => absurd h List.not_mem_nil⟩

/-- Settles O42: both states answer the evaluation of their one command. -/
theorem stepForgetsEarlierOutputs : Obligations.StepForgetsEarlierOutputs := by
  intro s s' h
  have same : s.output = s'.output := State.output_congr h
  exact ⟨s.output, answers_output s, same ▸ answers_output s'⟩

end Sys2Proof.Machine

/-! ### The byte lanes and the narrow results -/

namespace Sys2Proof.Machine

/-- The recursion of `MemRead` on values (R42): one more lane is added above the lanes below it. -/
theorem memRead_succ_toNat (lanes : Lanes) (addr n : Nat) (h : addr + (n + 1) ≤ 8) :
    (memRead lanes addr (n + 1) h).toNat =
      (memRead lanes addr n (by omega)).toNat + lanes[addr + n].toNat * 2 ^ (8 * n) := by
  have below : (memRead lanes addr n (by omega)).toNat < 2 ^ (8 * n) := BitVec.isLt _
  rw [memRead, BitVec.toNat_cast, BitVec.toNat_append, ← Nat.shiftLeft_add_eq_or_of_lt below, Nat.shiftLeft_eq,
    Nat.add_comm]

/-- Settles O20, by induction on the number of lanes: the top lane is the last term of the sum. -/
theorem memReadIsLittleEndian : Obligations.MemReadIsLittleEndian := by
  intro lanes addr n
  induction n with
  | zero => intro h; rfl
  | succ n ih => intro h; rw [memRead_succ_toNat, ih, Fin.sum_univ_castSucc]; rfl

/-- A byte, or the fallback 0, is below `2^8` (R81). -/
theorem getByte_lt (w : Word) (n : Int) : (getByte w n).toNat < 2 ^ 8 := by
  by_cases v : validByte n
  · lift n to Nat using v.1
    rw [getByte_value w n (by omega)]
    exact Nat.mod_lt _ (by decide)
  · rw [getByte, if_neg v]; decide

/-- A field of a valid range is as wide as the range (R90). -/
theorem getBits_lt (w : Word) {lo hi : Int} (v : validRange lo hi) :
    (getBits w lo hi).toNat < 2 ^ (hi - lo + 1).toNat := by
  obtain ⟨l, k, rfl, rfl, h, h63⟩ := validRange_cases v
  rw [getBits_value w l k h h63, show ((k : Int) - l + 1).toNat = k - l + 1 by omega]
  exact Nat.mod_lt _ (Nat.two_pow_pos _)

/-- A predicate's Word is one of two (R71). -/
theorem predicateWord_eq_zero_or_one (p : Bool) : predicateWord p = 0#64 ∨ predicateWord p = 1#64 := by
  cases p <;> decide

/-- A state whose ports select an assigned operation carries its value on `r` and answers it with `ill = 0` (R66). -/
theorem answers_of_evaluate {s : State} {v : Word} (h : evaluate s.ports = ⟨v, 0#1⟩) :
    s.r = v ∧ Answers s ⟨s.r, 0#1⟩ := by
  have value : s.r = v := congrArg Output.r h
  exact ⟨value, by rw [value, ← h]; exact answers_output s⟩

/-- `Eval` by the three predicates' select values is a predicate's Word with `ill = 0`. -/
theorem evaluate_predicate {c : Command} (h : c.op ∈ [0x8#4, 0x9#4, 0xA#4]) :
    ∃ p, evaluate c = ⟨predicateWord p, 0#1⟩ := by
  simp only [List.mem_cons, List.not_mem_nil, or_false] at h
  rw [← result_decode]
  rcases h with h | h | h
  · exact ⟨_, by rw [decode_sign h]; rfl⟩
  · exact ⟨_, by rw [decode_addOverflow h]; rfl⟩
  · exact ⟨_, by rw [decode_subOverflow h]; rfl⟩

/-- Settles O41: each select value's row of the table gives the value on `r`, and that value has its bound. -/
theorem narrowResultsAreZeroExtended : Obligations.NarrowResultsAreZeroExtended := by
  intro s
  refine ⟨fun h => ?_, fun h v => ?_, fun h => ?_⟩
  · obtain ⟨value, answer⟩ := answers_of_evaluate (s := s) (by rw [← result_decode, decode_getByte h, result])
    exact ⟨value ▸ getByte_lt _ _, answer⟩
  · obtain ⟨value, answer⟩ := answers_of_evaluate (s := s) (by rw [← result_decode, decode_getBits h, result])
    exact ⟨value ▸ getBits_lt _ v, answer⟩
  · obtain ⟨p, hp⟩ := evaluate_predicate h
    obtain ⟨value, answer⟩ := answers_of_evaluate hp
    exact ⟨value ▸ predicateWord_eq_zero_or_one p, answer⟩

end Sys2Proof.Machine

/-! ### What a run adds to the host's record -/

namespace Sys2Proof.Machine

/-- Everything the run of a fixed list can do: it adds the evaluations of the commands in their order, and leaves the last
command on the ports (R163). -/
theorem runHost_fixedProgram (cs : List Command) (s : State) :
    runHost (fixedProgram cs) s =
      .next { s with ports := cs.getLastD s.ports, results := s.results ++ cs.map evaluate } := by
  induction cs generalizing s with
  | nil => simp [fixedProgram, runHost]
  | cons c cs ih =>
    calc runHost (fixedProgram (c :: cs)) s
        = runHost (fixedProgram cs) ((s.present c).record (evaluate c)) := runHost_cons_of_some rfl _
      _ = .next { s with ports := cs.getLastD c, results := s.results ++ [evaluate c] ++ cs.map evaluate } := ih _
      _ = .next { s with ports := (c :: cs).getLastD s.ports, results := s.results ++ (c :: cs).map evaluate } := by
        rw [List.getLastD_cons, List.map_cons, List.append_assoc, List.singleton_append]

/-- Settles O43: the state `runHost_fixedProgram` names carries the last command's evaluation. -/
theorem runOfACommandListIsItsEvaluations : Obligations.RunOfACommandListIsItsEvaluations := by
  intro cs s
  refine ⟨_, runHost_fixedProgram cs s, rfl, fun c hc => ?_⟩
  have last : cs.getLastD s.ports = c := by rw [List.getLastD_eq_getLast?, Option.mem_def.mp hc, Option.getD_some]
  exact ⟨last, congrArg evaluate last⟩

/-- What a host's program adds to a record is fixed by the record: a command it builds depends on the record alone, and the
evaluation on that command alone (R50). So one list, no longer than the program, serves every state with that record. -/
theorem runHost_adds (program : HostProgram) (results : List Output) :
    ∃ added, added.length ≤ program.length ∧
      ∀ s : State, s.results = results → ∃ t, runHost program s = .next t ∧ t.results = results ++ added := by
  induction program generalizing results with
  | nil => exact ⟨[], le_rfl, fun s hs => ⟨s, rfl, by rw [hs, List.append_nil]⟩⟩
  | cons choose rest ih =>
    cases hc : choose results with
    | none =>
      obtain ⟨added, short, runs⟩ := ih results
      refine ⟨added, Nat.le_succ_of_le short, fun s hs => ?_⟩
      rw [runHost_cons_of_none (hs ▸ hc)]
      exact runs s hs
    | some c =>
      obtain ⟨added, short, runs⟩ := ih (results ++ [evaluate c])
      refine ⟨evaluate c :: added, Nat.succ_le_succ short, fun s hs => ?_⟩
      rw [runHost_cons_of_some (hs ▸ hc), List.append_cons]
      exact runs _ (by rw [State.record_results, State.present_results, hs])

/-- Settles O44: both runs add the one list that `runHost_adds` gives for their common record. -/
theorem hostRunIsIndependentOfTheStartState : Obligations.HostRunIsIndependentOfTheStartState := by
  intro program s s' same
  obtain ⟨added, short, runs⟩ := runHost_adds program s.results
  obtain ⟨t, run, ht⟩ := runs s rfl
  obtain ⟨t', run', ht'⟩ := runs s' same.symm
  refine ⟨t, t', run, run', ht.trans ht'.symm, ⟨added, ht.symm⟩, ?_⟩
  rw [ht, List.length_append]
  exact Nat.add_le_add_left short _

/-- Picking a caller's outputs out of the whole list's is evaluating the caller's own commands. -/
theorem filter_zip_evaluate (tagged : List (Nat × Command)) (caller : Nat) :
    (((tagged.map Prod.fst).zip ((tagged.map Prod.snd).map evaluate)).filter fun p => p.1 = caller).map Prod.snd =
      ((tagged.filter fun p => p.1 = caller).map Prod.snd).map evaluate := by
  rw [List.map_map, List.zip_map', List.filter_map, List.map_map, List.map_map]
  rfl

/-- Settles O45: each run's results are the evaluations of its own commands (`runHost_fixedProgram`). -/
theorem multiplexedCallersGetTheirOwnResults : Obligations.MultiplexedCallersGetTheirOwnResults := by
  intro tagged caller s s'
  refine ⟨_, _, _, runHost_fixedProgram _ s, rfl, runHost_fixedProgram _ s', ?_⟩
  rw [filter_zip_evaluate]

end Sys2Proof.Machine

/-! ### The bundle and the decoder -/

namespace Sys2Proof

/-- A field of a bit vector, given bit by bit. -/
theorem extractLsb'_eq_of_getLsbD {n start len : Nat} {w : BitVec n} {v : BitVec len}
    (h : ∀ j < len, w.getLsbD (start + j) = v.getLsbD j) : w.extractLsb' start len = v :=
  BitVec.eq_of_getLsbD_eq fun j hj => by rw [BitVec.getLsbD_extractLsb', decide_eq_true hj, Bool.true_and, h j hj]

@[simp] theorem toBundle_op (c : Command) : c.toBundle.extractLsb' 288 4 = c.op :=
  extractLsb'_eq_of_getLsbD fun j hj => by rw [toBundle_getLsbD]; grind

@[simp] theorem toBundle_i2 (c : Command) : c.toBundle.extractLsb' 256 32 = c.i2 :=
  extractLsb'_eq_of_getLsbD fun j hj => by rw [toBundle_getLsbD]; grind

@[simp] theorem toBundle_i1 (c : Command) : c.toBundle.extractLsb' 224 32 = c.i1 :=
  extractLsb'_eq_of_getLsbD fun j hj => by rw [toBundle_getLsbD]; grind

@[simp] theorem toBundle_i0 (c : Command) : c.toBundle.extractLsb' 192 32 = c.i0 :=
  extractLsb'_eq_of_getLsbD fun j hj => by rw [toBundle_getLsbD]; grind

@[simp] theorem toBundle_b (c : Command) : c.toBundle.extractLsb' 128 64 = c.b :=
  extractLsb'_eq_of_getLsbD fun j hj => by rw [toBundle_getLsbD]; grind

@[simp] theorem toBundle_a (c : Command) : c.toBundle.extractLsb' 64 64 = c.a :=
  extractLsb'_eq_of_getLsbD fun j hj => by rw [toBundle_getLsbD]; grind

@[simp] theorem toBundle_laneWord (c : Command) : c.toBundle.extractLsb' 0 64 = laneWord c.lanes :=
  extractLsb'_eq_of_getLsbD fun j hj => by rw [toBundle_getLsbD]; grind

/-- Lane `k` of a command, in its bundle (R60). -/
theorem toBundle_lane (c : Command) (k : Fin 8) : c.toBundle.extractLsb' (8 * k) 8 = c.lanes[k] :=
  extractLsb'_eq_of_getLsbD fun j hj => by
    rw [toBundle_getLsbD, if_pos (by omega), laneWord_getLsbD c.lanes k j k.isLt hj]; rfl

/-- The lanes read from the Word they make are the lanes. -/
theorem lanesOfWord_laneWord (lanes : Lanes) : lanesOfWord (laneWord lanes) = lanes :=
  Vector.ext fun k hk => by
    rw [lanesOfWord_get _ k hk]
    exact extractLsb'_eq_of_getLsbD fun j hj => laneWord_getLsbD lanes k j hk hj

/-- The Word made of the lanes read from a Word is that Word. -/
theorem laneWord_lanesOfWord (w : BitVec 64) : laneWord (lanesOfWord w) = w :=
  BitVec.eq_of_getLsbD_eq fun i hi => by
    have bit : i % 8 < 8 := Nat.mod_lt i (by decide)
    have lane := laneWord_getLsbD (lanesOfWord w) (i / 8) (i % 8) (by omega) bit
    rw [lanesOfWord_get, BitVec.getLsbD_extractLsb', decide_eq_true bit, Bool.true_and, Nat.div_add_mod] at lane
    exact lane

/-- Nothing of a command is lost in its bundle (R60). -/
theorem ofBundle_toBundle (c : Command) : Command.ofBundle c.toBundle = c := by
  simp only [Command.ofBundle, toBundle_op, toBundle_i2, toBundle_i1, toBundle_i0, toBundle_b, toBundle_a,
    toBundle_laneWord, lanesOfWord_laneWord]

/-- Nothing of a bundle is lost on the ports (R60): each of its bits is in one field. -/
theorem toBundle_ofBundle (w : Bundle) : (Command.ofBundle w).toBundle = w :=
  BitVec.eq_of_getLsbD_eq fun k hk => by
    simp only [toBundle_getLsbD, Command.ofBundle, laneWord_lanesOfWord, BitVec.getLsbD_extractLsb']
    grind

/-- Decoding the ports of an instruction's encoding gives the instruction. -/
theorem decode_encode (i : Instr) : decode (Command.ofBundle (encode i)) = i := by
  rw [encode, ofBundle_toBundle, decode_place]

/-- The names of spec/opcode_table.json in the order of their codes (R63). -/
theorem selectTable_getElem (i : Instr) :
    ["buildLong", "getByte", "setByte", "reserved_0x3", "getBits", "setBits", "clearBits", "reserved_0x7", "sign",
      "addOverflow", "subOverflow", "reserved_0xB", "copyBits", "reserved_0xD", "reserved_0xE",
      "reserved_0xF"][i.select.toNat]? = some i.mnemonic := by
  cases i <;> rfl

/-- Settles O4: the encoder places the arguments and makes the bundle, and each has its inverse on the decoder's side. -/
theorem decodeOfEncodeIsTheInstruction : Obligations.DecodeOfEncodeIsTheInstruction := fun i =>
  ⟨decode_encode i, by rw [decodeTableWord_bundle, decode_encode]⟩

/-- Settles O2: each field's bits are those of its port, and the ports and the bundle determine each other. -/
theorem bundleCarriesEveryPortAtItsPlace : Obligations.BundleCarriesEveryPortAtItsPlace :=
  ⟨fun c => ⟨toBundle_op c, toBundle_i2 c, toBundle_i1 c, toBundle_i0 c, toBundle_b c, toBundle_a c, toBundle_lane c⟩,
    ofBundle_toBundle, toBundle_ofBundle⟩

/-- Settles O3: the decoded instruction carries the select value in `CMD[291:288]`, and that value is its row. -/
theorem decoderFollowsTheSelectTable : Obligations.DecoderFollowsTheSelectTable := by
  refine ⟨fun w => ⟨_, decodeTableWord_bundle w, ?_⟩, fun w wide => if_neg wide⟩
  have op : (decode (Command.ofBundle w)).select = w.extractLsb' 288 4 := select_decode _
  rw [← op]
  exact selectTable_getElem _

/-- The command with 0 on every port that the format of its operation does not list (R61, R62). -/
def canonicalCommand (c : Command) : Command where
  op := c.op
  a := if c.op ∈ [0x1#4, 0x2#4, 0x4#4, 0x5#4, 0x6#4, 0x8#4, 0x9#4, 0xA#4, 0xC#4] then c.a else 0#64
  b := if c.op ∈ [0x9#4, 0xA#4, 0xC#4] then c.b else 0#64
  i0 := if c.op ∈ [0x1#4, 0x2#4, 0x4#4, 0x5#4, 0x6#4, 0xC#4] then c.i0 else 0#32
  i1 := if c.op ∈ [0x4#4, 0x5#4, 0x6#4, 0xC#4] then c.i1 else 0#32
  i2 := if c.op = 0xC#4 then c.i2 else 0#32
  lanes := if c.op = 0x0#4 then c.lanes else Command.zero.lanes

/-- Decoding a command and placing the instruction's arguments again zeroes the unused ports and keeps the others. -/
theorem place_decode (c : Command) : place (decode c) = canonicalCommand c := by
  rcases sel_cases c.op with h | h | h | h | h | h | h | h | h | h | h | h | h | h | h | h <;>
    simp [decode, place, canonicalCommand, Command.zero, h]

/-- The decoder does not read the unused ports (R62). -/
theorem decode_canonicalCommand (c : Command) : decode (canonicalCommand c) = decode c := by
  rw [← place_decode, decode_place]

/-- A select value whose format does not list the port `a` is `buildLong`'s or a reserved one (R61). -/
theorem sel_without_a (op : Sel) : op ∉ [0x1#4, 0x2#4, 0x4#4, 0x5#4, 0x6#4, 0x8#4, 0x9#4, 0xA#4, 0xC#4] →
    op ∈ [0x0#4, 0x3#4, 0x7#4, 0xB#4, 0xD#4, 0xE#4, 0xF#4] := by
  revert op; decide

/-- Settles O5: a command with zeros on its unused ports is its own canonical command. -/
theorem canonicalEncodingIsUnique : Obligations.CanonicalEncodingIsUnique := by
  rintro i c rfl hlanes ha hb hi0 hi1 hi2
  have same : canonicalCommand c = c := by
    simp only [canonicalCommand, ite_eq_left_iff.mpr fun n => (ha (sel_without_a _ n)).symm,
      ite_eq_left_iff.mpr fun n => (hb n).symm, ite_eq_left_iff.mpr fun n => (hi0 n).symm,
      ite_eq_left_iff.mpr fun n => (hi1 n).symm, ite_eq_left_iff.mpr fun n => (hi2 n).symm,
      ite_eq_left_iff.mpr fun n => (hlanes n).symm]
  rw [encode, place_decode, same]

/-- Settles O1: five closed words, which the decoder evaluates. -/
theorem specWordsDecodeToTheirInstructions : Obligations.SpecWordsDecodeToTheirInstructions :=
  ⟨by decide, by decide, by decide, by decide, by decide⟩

end Sys2Proof

/-! ### Unused ports and reserved selects -/

namespace Sys2Proof.Machine

/-- `Eval` does not depend on the unused ports (R62). -/
theorem evaluate_canonicalCommand (c : Command) : evaluate (canonicalCommand c) = evaluate c := by
  rw [← result_decode, decode_canonicalCommand, result_decode]

/-- An instruction gives `ill = 1` exactly when it is a reserved select (R66). -/
theorem result_ill_iff (i : Instr) :
    (result i).ill = 1#1 ↔ i.select ∈ [0x3#4, 0x7#4, 0xB#4, 0xD#4, 0xE#4, 0xF#4] := by
  cases i <;> simp [result, Instr.select]

/-- Settles O39: both states answer the evaluation of their one canonical command. -/
theorem unusedPortsAreIgnored : Obligations.UnusedPortsAreIgnored := by
  intro s s' hop hlanes ha hb hi0 hi1 hi2
  have canonical : canonicalCommand s.ports = canonicalCommand s'.ports := by
    rw [canonicalCommand, canonicalCommand, ← hop, ite_congr rfl ha fun _ => rfl, ite_congr rfl hb fun _ => rfl,
      ite_congr rfl hi0 fun _ => rfl, ite_congr rfl hi1 fun _ => rfl, ite_congr rfl hi2 fun _ => rfl,
      ite_congr rfl hlanes fun _ => rfl]
  have same : s.output = s'.output := by
    rw [State.output, State.output, ← evaluate_canonicalCommand, canonical, evaluate_canonicalCommand]
  exact ⟨s.output, answers_output s, same ▸ answers_output s'⟩

/-- Settles O40: the output ports carry the result of the decoded instruction, whose select value is on `op`. -/
theorem illMarksExactlyTheReservedSelects : Obligations.IllMarksExactlyTheReservedSelects := by
  intro s
  have out : s.output = result (decode s.ports) := (result_decode s.ports).symm
  refine ⟨answers_output s, ?_, ?_⟩
  · rw [State.ill, out, result_ill_iff, select_decode]
  · rw [State.ill, State.r, out]
    exact result_r_of_ill _

/-- Settles O16: `result` of a reserved select is the pair `r = 0`, `ill = 1`. -/
theorem reservedSelectsDriveZeroAndIll : Obligations.ReservedSelectsDriveZeroAndIll := fun s =>
  ⟨exec_eq_result .reserved0x3 s, exec_eq_result .reserved0x7 s, exec_eq_result .reserved0xB s,
    exec_eq_result .reserved0xD s, exec_eq_result .reserved0xE s, exec_eq_result .reserved0xF s⟩

end Sys2Proof.Machine

/-! ### The written form -/

namespace Sys2Proof.Machine

theorem isOk_iff_exists {ε α : Type} (x : Except ε α) : x.isOk = true ↔ ∃ a, x = .ok a := by
  cases x <;> simp [Except.isOk, Except.toBool]

/-- A chain of readings is accepted when the first one is and the rest, whatever was read, is. -/
theorem isOk_bind {ε α β : Type} {x : Except ε α} {f : α → Except ε β} {p : Bool} (rest : ∀ a, (f a).isOk = p) :
    (x >>= f).isOk = (x.isOk && p) := by
  cases x with
  | error e => rfl
  | ok a => exact rest a

theorem isOk_ite_error {ε α : Type} (p : Bool) (a : α) (e : ε) :
    (if p = true then Except.ok a else Except.error e).isOk = p := by
  cases p <;> rfl

theorem toWord_isOk (arg : Arg) : (Arg.toWord arg).isOk = arg.isWord := by
  cases arg with
  | hex n => exact isOk_ite_error _ _ _
  | dec n => rfl
  | list bytes => rfl

theorem toIndex_isOk (arg : Arg) : (Arg.toIndex arg).isOk = arg.isIndex := by
  cases arg with
  | hex n => exact isOk_ite_error _ _ _
  | dec n => exact isOk_ite_error _ _ _
  | list bytes => rfl

theorem toLanes_isOk (arg : Arg) : (Arg.toLanes arg).isOk = arg.isBytes := by
  cases arg with
  | hex n => rfl
  | dec n => rfl
  | list bytes =>
    by_cases h : bytes.length = 8
    · match bytes, h with
      | [_, _, _, _, _, _, _, _], _ => exact isOk_ite_error _ _ _
    · rw [toLanes_of_length_ne bytes h, Arg.isBytes, decide_eq_false h]; rfl

/-- The written byte list of eight lanes is read back. -/
theorem toLanes_written (bytes : Lanes) : Arg.toLanes (.list (bytes.toList.map BitVec.toNat)) = .ok bytes := by
  have small : (Arg.list (bytes.toList.map BitVec.toNat)).isBytes = true := by
    simpa [Arg.isBytes] using fun k (hk : k < 8) => bytes[k].isLt
  obtain ⟨⟨lanes⟩, size⟩ := bytes
  match lanes, size with
  | [b0, b1, b2, b3, b4, b5, b6, b7], _ =>
    refine (if_pos small).trans ?_
    simp

/-- Arguments of another number than the positions do not suit them. -/
theorem allSuit_of_length_ne {args : List Arg} {kinds : List ArgKind} (h : args.length ≠ kinds.length) :
    Arg.allSuit args kinds = false := by
  induction args generalizing kinds with
  | nil => cases kinds with
    | nil => exact absurd rfl h
    | cons kind kinds => rfl
  | cons arg args ih => cases kinds with
    | nil => rfl
    | cons kind kinds => rw [Arg.allSuit, ih (by simpa using h), Bool.and_false]

section
variable {arg : Arg} {args : List Arg} {kinds : List ArgKind}

/-- Reading a Word and then the other arguments is accepted when all of them suit. -/
theorem isOk_readWord {rest : Word → Except CallReject Instr} (h : ∀ w, (rest w).isOk = Arg.allSuit args kinds) :
    (Arg.toWord arg >>= rest).isOk = Arg.allSuit (arg :: args) (.word :: kinds) := by
  rw [isOk_bind h, toWord_isOk]; rfl

/-- Reading an index and then the other arguments is accepted when all of them suit. -/
theorem isOk_readIndex {rest : Idx → Except CallReject Instr} (h : ∀ i, (rest i).isOk = Arg.allSuit args kinds) :
    (Arg.toIndex arg >>= rest).isOk = Arg.allSuit (arg :: args) (.index :: kinds) := by
  rw [isOk_bind h, toIndex_isOk]; rfl

/-- Reading the byte list and then the other arguments is accepted when all of them suit. -/
theorem isOk_readLanes {rest : Lanes → Except CallReject Instr} (h : ∀ l, (rest l).isOk = Arg.allSuit args kinds) :
    (Arg.toLanes arg >>= rest).isOk = Arg.allSuit (arg :: args) (.bytes :: kinds) := by
  rw [isOk_bind h, toLanes_isOk]; rfl

end

/-! #### Acceptance, format by format (R61) -/

theorem assembleY_isOk (make : Word → Idx → Instr) :
    ∀ args, (assembleY make args).isOk = Arg.allSuit args [.word, .index]
  | [_, _] => isOk_readWord fun _ => isOk_readIndex fun _ => rfl
  | [] | [_] | _ :: _ :: _ :: _ => (allSuit_of_length_ne (by simp)).symm

theorem assembleR_isOk (make : Word → Idx → Idx → Instr) :
    ∀ args, (assembleR make args).isOk = Arg.allSuit args [.word, .index, .index]
  | [_, _, _] => isOk_readWord fun _ => isOk_readIndex fun _ => isOk_readIndex fun _ => rfl
  | [] | [_] | [_, _] | _ :: _ :: _ :: _ :: _ => (allSuit_of_length_ne (by simp)).symm

theorem assembleP_isOk (make : Word → Word → Instr) :
    ∀ args, (assembleP make args).isOk = Arg.allSuit args [.word, .word]
  | [_, _] => isOk_readWord fun _ => isOk_readWord fun _ => rfl
  | [] | [_] | _ :: _ :: _ :: _ => (allSuit_of_length_ne (by simp)).symm

theorem assemble_buildLong_isOk : ∀ args, (assemble ⟨"buildLong", args⟩).isOk = Arg.allSuit args [.bytes]
  | [_] => isOk_readLanes fun _ => rfl
  | [] | _ :: _ :: _ => (allSuit_of_length_ne (by simp)).symm

theorem assemble_sign_isOk : ∀ args, (assemble ⟨"sign", args⟩).isOk = Arg.allSuit args [.word]
  | [_] => isOk_readWord fun _ => rfl
  | [] | _ :: _ :: _ => (allSuit_of_length_ne (by simp)).symm

theorem assemble_copyBits_isOk :
    ∀ args, (assemble ⟨"copyBits", args⟩).isOk = Arg.allSuit args [.word, .word, .index, .index, .index]
  | [_, _, _, _, _] =>
    isOk_readWord fun _ => isOk_readWord fun _ => isOk_readIndex fun _ => isOk_readIndex fun _ =>
      isOk_readIndex fun _ => rfl
  | [] | [_] | [_, _] | [_, _, _] | [_, _, _, _] | _ :: _ :: _ :: _ :: _ :: _ :: _ =>
    (allSuit_of_length_ne (by simp)).symm

/-- A call's meaning depends on its name only through the operation the name stands for (R70). -/
theorem assemble_congr_name {name name' : String} (h : Mnemonic.ofName name = Mnemonic.ofName name') (args : List Arg) :
    assemble ⟨name, args⟩ = assemble ⟨name', args⟩ := by
  simp only [assemble, h]

theorem assemble_isOk (c : Call) : (assemble c).isOk = c.wellFormed := by
  obtain ⟨name, args⟩ := c
  simp only [assemble, Call.wellFormed]
  cases Mnemonic.ofName name with
  | none => rfl
  | some m =>
    cases m with
    | buildLong => exact assemble_buildLong_isOk args
    | getByte | setByte => exact assembleY_isOk _ args
    | getBits | setBits | clearBits => exact assembleR_isOk _ args
    | sign => exact assemble_sign_isOk args
    | addOverflow | subOverflow => exact assembleP_isOk _ args
    | copyBits => exact assemble_copyBits_isOk args

/-- A call is well formed exactly when it assembles. -/
theorem wellFormed_iff_assembles (c : Call) : c.wellFormed = true ↔ ∃ i, assemble c = .ok i := by
  rw [← assemble_isOk, isOk_iff_exists]

/-- The written call of an instruction assembles to it: every argument is read back. -/
theorem assemble_writtenCall {i : Instr} {c : Call} (h : writtenCall i = some c) : assemble c = .ok i := by
  cases i <;> cases h <;>
    simp [assemble, Mnemonic.ofName, assembleY, assembleR, assembleP, toWord_wordArg, toIndex_indexArg,
      toLanes_written] <;> rfl

/-- Exactly the reserved selects have no written call (R69). -/
theorem writtenCall_eq_none_iff (i : Instr) :
    writtenCall i = none ↔ i.select ∈ [0x3#4, 0x7#4, 0xB#4, 0xD#4, 0xE#4, 0xF#4] := by
  cases i <;> simp [writtenCall, Instr.select]

/-- Settles O46: the arguments are read back, and a call that assembles is well formed. -/
theorem assemblerReadsBackTheWrittenCall : Obligations.AssemblerReadsBackTheWrittenCall := fun i =>
  ⟨fun c h => ⟨assemble_writtenCall h, (wellFormed_iff_assembles c).mpr ⟨i, assemble_writtenCall h⟩⟩,
    writtenCall_eq_none_iff i⟩

/-- Settles O47: acceptance is `assemble_isOk`, and an R70 name stands for the document's operation. -/
theorem assemblerAcceptsExactlyTheWellFormedCalls : Obligations.AssemblerAcceptsExactlyTheWellFormedCalls := by
  refine ⟨wellFormed_iff_assembles, fun args => ⟨assemble_congr_name rfl args, assemble_congr_name rfl args⟩,
    fun bytes h => ?_⟩
  show (Arg.toLanes (.list bytes) >>= fun lanes => pure (Instr.buildLong lanes)) = _
  rw [toLanes_of_length_ne bytes h]
  rfl

end Sys2Proof.Machine

/-! ### Byte assembly and access -/

namespace Sys2Proof.Machine

/-- Where each lane stands in the assembled Word (R80). -/
theorem buildLong_bit (bytes : Lanes) (k j : Nat) (hk : k < 8) (hj : j < 8) :
    (buildLong bytes).getLsbD (8 * k + j) = bytes[k].getLsbD j := by
  simpa [buildLong] using memRead_bit bytes 0 8 le_rfl k j hk hj

/-- The assembled Word as a number (R80). -/
theorem buildLong_value (bytes : Lanes) :
    (buildLong bytes).toNat = ∑ k : Fin 8, bytes[k].toNat * 2 ^ (8 * (k : Nat)) := by
  simpa [buildLong] using memReadIsLittleEndian bytes 0 8 le_rfl

/-- The fallback of an index outside 0 to 7 (R81). -/
theorem getByte_of_invalid (a : Word) {n : Int} (h : ¬validByte n) : getByte a n = 0#64 :=
  if_neg h

/-- The fallback of an index outside 0 to 7 (R82). -/
theorem setByte_of_invalid (a : Word) {n : Int} (h : ¬validByte n) : setByte a n = a :=
  if_neg h

/-- Settles O6: the bits and the number of `buildLong` are those of `MemRead(0, 8)`. -/
theorem buildLongAssemblesLittleEndian : Obligations.BuildLongAssemblesLittleEndian :=
  ⟨fun bytes s => ⟨buildLong bytes, exec_eq_result (.buildLong bytes) s,
    fun k j hj => buildLong_bit bytes k j k.isLt hj, buildLong_value bytes⟩, fun _ h => decode_buildLong h⟩

/-- Settles O7: the two branches of the validity test on the index itself. -/
theorem getByteExtractsOneByteOrZero : Obligations.GetByteExtractsOneByteOrZero := by
  refine ⟨fun a i0 s => ⟨getByte a i0.toInt, exec_eq_result (.getByte a i0) s, fun n hn h7 => ?_,
    getByte_of_invalid a⟩, fun _ h => decode_getByte h⟩
  rw [hn]
  exact ⟨getByte_value a n h7, fun j => getByte_bit a n j h7⟩

/-- Settles O8: the two branches of the validity test on the index itself. -/
theorem setByteForcesOneByteOrNothing : Obligations.SetByteForcesOneByteOrNothing := by
  refine ⟨fun a i0 s => ⟨setByte a i0.toInt, exec_eq_result (.setByte a i0) s, fun n hn h7 k _ => ?_,
    setByte_of_invalid a⟩, fun _ h => decode_setByte h⟩
  rw [hn, setByte_bit a n k h7, Bool.decide_and, Bool.or_comm]

/-- A byte index is valid exactly when its byte's range is (R83). -/
theorem validRange_byte_iff (n : Int) : validRange (8 * n) (8 * n + 7) ↔ validByte n := by
  simp only [validRange, validByte]; omega

/-- The ends of a valid byte's range as numbers. -/
theorem byte_ends_toNat {n : Int} (v : validByte n) :
    (8 * n).toNat = 8 * n.toNat ∧ (8 * n + 7).toNat = 8 * n.toNat + 7 := by
  omega

/-- R83: the two operations read the same slice in range and have the same fallback out of range. -/
theorem getByte_eq_getBits (w : Word) (n : Int) : getByte w n = getBits w (8 * n) (8 * n + 7) := by
  by_cases v : validByte n
  · obtain ⟨lo, hi⟩ := byte_ends_toNat v
    rw [getByte, getBits, if_pos v, if_pos ((validRange_byte_iff n).mpr v), lo, hi]
  · rw [getByte_of_invalid w v, getBits, if_neg (mt (validRange_byte_iff n).mp v)]

/-- R83: the two operations set the same mask in range and have the same fallback out of range. -/
theorem setByte_eq_setBits (w : Word) (n : Int) : setByte w n = setBits w (8 * n) (8 * n + 7) := by
  by_cases v : validByte n
  · obtain ⟨lo, hi⟩ := byte_ends_toNat v
    rw [setByte, setBits, if_pos v, if_pos ((validRange_byte_iff n).mpr v), lo, hi]
  · rw [setByte_of_invalid w v, setBits, if_neg (mt (validRange_byte_iff n).mp v)]

/-- A byte that was set reads back as ones: its eight bits are all in the range that was set. -/
theorem getByte_setByte (w : Word) (n : Nat) (h : n ≤ 7) : getByte (setByte w n) n = 0xff#64 :=
  BitVec.eq_of_getLsbD_eq fun j _ => by
    have ones : 0xff#64 = mask 0 7 := rfl
    rw [getByte_bit _ n j h, setByte_bit w n _ h, ones, mask_bit 0 7 j (by decide) (by decide)]
    by_cases hj : j < 8
    · simp [hj, show j ≤ 7 by omega]
    · simp [hj, show ¬j ≤ 7 by omega]

/-- Byte `k` of an assembled Word is lane `k`. -/
theorem getByte_buildLong (lanes : Lanes) (k : Fin 8) :
    getByte (buildLong lanes) (k : Nat) = zext64 lanes[k] :=
  BitVec.eq_of_getLsbD_eq fun j _ => by
    rw [getByte_bit _ k j (by omega), zext64_getLsbD _ (by decide)]
    by_cases hj : j < 8
    · rw [buildLong_bit lanes k j k.isLt hj, decide_eq_true hj, Bool.true_and]; rfl
    · rw [decide_eq_false hj, Bool.false_and, BitVec.getLsbD_of_ge _ _ (by omega)]

/-- Two Words are equal when their bytes are: every bit position is `8k+j`. -/
theorem eq_of_byte_bits {v w : Word} (h : ∀ k j, k < 8 → j < 8 → v.getLsbD (8 * k + j) = w.getLsbD (8 * k + j)) :
    v = w :=
  BitVec.eq_of_getLsbD_eq fun i hi => by
    simpa only [Nat.div_add_mod] using h (i / 8) (i % 8) (by omega) (by omega)

/-- A Word is assembled from its own eight bytes. -/
theorem buildLong_getByte (w : Word) :
    buildLong (Vector.ofFn fun k : Fin 8 => (getByte w (k : Nat)).setWidth 8) = w :=
  eq_of_byte_bits fun k j hk hj => by
    rw [buildLong_bit _ k j hk hj, Vector.getElem_ofFn, BitVec.getLsbD_setWidth, getByte_bit w k j (by omega),
      decide_eq_true hj, Bool.true_and, Bool.true_and]

/-- Settles O27: the equivalences for every integer, and the round trips of a set byte and of the lanes. -/
theorem byteOperationsAgreeWithBitRanges : Obligations.ByteOperationsAgreeWithBitRanges := by
  refine ⟨fun w n => ⟨getByte_eq_getBits w n, setByte_eq_setBits w n⟩, fun w n h0 h7 => ?_, fun lanes k => ?_,
    buildLong_getByte⟩
  · lift n to Nat using h0
    exact getByte_setByte w n (by omega)
  · rw [getByte_buildLong, zext64, BitVec.toNat_setWidth, Nat.mod_eq_of_lt (by omega)]

end Sys2Proof.Machine

/-! ### Bit-range access -/

namespace Sys2Proof.Machine

/-- The fallback of an invalid range (R90). -/
theorem getBits_of_invalid (a : Word) {lo hi : Int} (h : ¬validRange lo hi) : getBits a lo hi = 0#64 :=
  if_neg h

/-- The fallback of an invalid range (R91). -/
theorem setBits_of_invalid (a : Word) {lo hi : Int} (h : ¬validRange lo hi) : setBits a lo hi = a :=
  if_neg h

/-- The fallback of an invalid range (R92). -/
theorem clearBits_of_invalid (a : Word) {lo hi : Int} (h : ¬validRange lo hi) : clearBits a lo hi = a :=
  if_neg h

/-- Settles O9: the two branches of the range test on the indices themselves. -/
theorem getBitsExtractsTheFieldOrZero : Obligations.GetBitsExtractsTheFieldOrZero := by
  refine ⟨fun a i0 i1 s => ⟨getBits a i0.toInt i1.toInt, exec_eq_result (.getBits a i0 i1) s,
    fun lo hi hlo hhi h h63 => ?_, getBits_of_invalid a⟩, fun _ h => decode_getBits h⟩
  rw [hlo, hhi]
  exact ⟨getBits_value a lo hi h h63, fun j => getBits_bit a lo hi j h h63⟩

/-- Settles O10: the two branches of the range test on the indices themselves. -/
theorem setBitsForcesTheFieldToOnes : Obligations.SetBitsForcesTheFieldToOnes := by
  refine ⟨fun a i0 i1 s => ⟨setBits a i0.toInt i1.toInt, exec_eq_result (.setBits a i0 i1) s,
    fun lo hi hlo hhi h h63 k _ => ?_, setBits_of_invalid a⟩, fun _ h => decode_setBits h⟩
  rw [hlo, hhi, setBits_bit a lo hi k h h63, Bool.decide_and, Bool.or_comm]

/-- Settles O11: the two branches of the range test on the indices themselves. -/
theorem clearBitsForcesTheFieldToZeros : Obligations.ClearBitsForcesTheFieldToZeros := by
  refine ⟨fun a i0 i1 s => ⟨clearBits a i0.toInt i1.toInt, exec_eq_result (.clearBits a i0 i1) s,
    fun lo hi hlo hhi h h63 k _ => ?_, clearBits_of_invalid a⟩, fun _ h => decode_clearBits h⟩
  rw [hlo, hhi, clearBits_bit a lo hi k h h63, Bool.decide_and, Bool.and_comm]

end Sys2Proof.Machine

/-! ### Sign and overflow predicates -/

namespace Sys2Proof.Machine

/-- A predicate's answer stands on bit 0 of its Word (R71). -/
theorem predicateWord_getLsbD_zero (p : Bool) : (predicateWord p).getLsbD 0 = p := by
  cases p <;> decide

/-- Two predicates' Words are equal exactly when the predicates are. -/
theorem predicateWord_inj (p q : Bool) : predicateWord p = predicateWord q ↔ p = q := by
  cases p <;> cases q <;> decide

/-- The false predicate's Word is `word(0)` (R71). -/
theorem predicateWord_eq_zero_iff (p : Bool) : predicateWord p = 0#64 ↔ p = false :=
  predicateWord_inj p false

theorem fits_iff (n : Int) : fits n = true ↔ -2 ^ 63 ≤ n ∧ n ≤ 2 ^ 63 - 1 :=
  decide_eq_true_iff

/-- The overflow predicates' Word by the range test of 42_sign_overflow.md. -/
theorem predicateWord_not_fits (n : Int) :
    predicateWord (!fits n) = if -2 ^ 63 ≤ n ∧ n ≤ 2 ^ 63 - 1 then 0#64 else 1#64 := by
  simp only [← fits_iff]
  cases fits n <;> decide

/-- No overflow is reported exactly when the integer is in range. -/
theorem predicateWord_not_fits_eq_zero_iff (n : Int) :
    predicateWord (!fits n) = 0#64 ↔ -2 ^ 63 ≤ n ∧ n ≤ 2 ^ 63 - 1 := by
  rw [predicateWord_eq_zero_iff, Bool.not_eq_false', fits_iff]

/-- Of an integer and its negation one fits and the other does not only at `2^63`, because `-2^63` is `MIN` (R102). -/
theorem fits_ne_fits_neg_iff (n : Int) : fits n ≠ fits (-n) ↔ n = 2 ^ 63 ∨ -n = 2 ^ 63 := by
  rw [ne_eq, Bool.eq_iff_iff, fits_iff, fits_iff]
  omega

/-- The signed value of a Word lies between `MIN` and `MAX` (R7). -/
theorem signedValue_bounds (w : Word) : -2 ^ 63 ≤ signedValue w ∧ signedValue w ≤ 2 ^ 63 - 1 :=
  (signedValuesFollowTheFormula.1 w).2

/-- R100: bit 63 is set exactly when the Word is negative. -/
theorem sign_eq_predicateWord_neg (a : Word) : sign a = predicateWord (decide (signedValue a < 0)) :=
  congrArg predicateWord ((BitVec.msb_eq_getLsbD_last a).symm.trans BitVec.msb_eq_toInt)

theorem sign_eq_one_iff (a : Word) : sign a = 1#64 ↔ signedValue a < 0 := by
  rw [sign_eq_predicateWord_neg, predicateWord_true_iff, decide_eq_true_iff]

theorem sign_eq_sign_iff (x y : Word) : sign x = sign y ↔ (signedValue x < 0 ↔ signedValue y < 0) := by
  rw [sign_eq_predicateWord_neg, sign_eq_predicateWord_neg, predicateWord_inj, decide_eq_decide]

/-- Settles O12: `sign` is the predicate `s(a) < 0`, by R7's formula for `s(a)` and by its unsigned form. -/
theorem signGivesTheSignBit : Obligations.SignGivesTheSignBit := by
  refine ⟨fun a s => ⟨sign a, exec_eq_result (.sign a) s, predicateWord_toNat _, ?_, ?_⟩, fun _ h => decode_sign h⟩
  · rw [← toInt_eq_toNat_sub_topBit]
    exact sign_eq_one_iff a
  · rw [sign_eq_one_iff, BitVec.toInt_neg_iff]
    omega

/-- The model's sum test is the library's signed overflow of an addition. -/
theorem not_fits_add (a b : Word) : (!fits (signedValue a + signedValue b)) = a.saddOverflow b := by
  rw [Bool.eq_iff_iff, Bool.not_eq_true', ← Bool.not_eq_true, fits_iff]
  simp only [signedValue, BitVec.saddOverflow, Bool.or_eq_true, decide_eq_true_eq]
  omega

/-- The model's difference test is the library's signed overflow of a subtraction, `op2` first. -/
theorem not_fits_sub (a b : Word) : (!fits (signedValue b - signedValue a)) = b.ssubOverflow a := by
  rw [Bool.eq_iff_iff, Bool.not_eq_true', ← Bool.not_eq_true, fits_iff]
  simp only [signedValue, BitVec.ssubOverflow, Bool.or_eq_true, decide_eq_true_eq]
  omega

/-- R103 for the sum: the document's standard rule on the signs. -/
theorem addOverflow_bit_zero (a b : Word) : (addOverflow a b).getLsbD 0 =
    (a.getLsbD 63 == b.getLsbD 63 && (a + b).getLsbD 63 != a.getLsbD 63) := by
  rw [addOverflow, predicateWord_getLsbD_zero, not_fits_add, BitVec.saddOverflow_eq]
  simp only [BitVec.msb_eq_getLsbD_last, bne]

/-- R103 for the difference: the operands' signs differ, and the wrapped difference has not the sign of `op2`. -/
theorem subOverflow_bit_zero (a b : Word) : (subOverflow a b).getLsbD 0 =
    (b.getLsbD 63 != a.getLsbD 63 && (b - a).getLsbD 63 != b.getLsbD 63) := by
  rw [subOverflow, predicateWord_getLsbD_zero, not_fits_sub, BitVec.ssubOverflow_eq]
  simp only [BitVec.msb_eq_getLsbD_last]
  cases b.getLsbD 63 <;> cases a.getLsbD 63 <;> cases (b - a).getLsbD 63 <;> rfl

theorem addOverflow_comm (a b : Word) : addOverflow b a = addOverflow a b := by
  rw [addOverflow, addOverflow, Int.add_comm]

/-- The two orders of a difference answer differently exactly where the negation of the difference leaves the range (R102). -/
theorem subOverflow_ne_swap_iff (a b : Word) : subOverflow a b ≠ subOverflow b a ↔
    signedValue b - signedValue a = 2 ^ 63 ∨ signedValue a - signedValue b = 2 ^ 63 := by
  rw [subOverflow, subOverflow, ne_eq, predicateWord_inj, Bool.not_inj_iff, ← Int.neg_sub (signedValue b)]
  exact fits_ne_fits_neg_iff _

/-- Settles O13: the defining form, the standard rule of R103 and the symmetry of the sum. -/
theorem addOverflowReportsTheSignedSum : Obligations.AddOverflowReportsTheSignedSum := by
  refine ⟨fun a b s => ⟨addOverflow a b, exec_eq_result (.addOverflow a b) s, predicateWord_not_fits _,
    addOverflow_bit_zero a b, ?_⟩, fun _ h => decode_addOverflow h⟩
  rw [exec_eq_result, exec_eq_result, result, result, addOverflow_comm]

/-- Settles O14: the defining form, the bit-level form of R103 and the one class of operands whose order matters. -/
theorem subOverflowReportsTheSignedDifference : Obligations.SubOverflowReportsTheSignedDifference :=
  ⟨fun a b s => ⟨subOverflow a b, subOverflow b a, exec_eq_result (.subOverflow a b) s, predicateWord_not_fits _,
    subOverflow_bit_zero a b, exec_eq_result (.subOverflow b a) s, subOverflow_ne_swap_iff a b⟩,
    fun _ h => decode_subOverflow h⟩

theorem signedValue_min : signedValue 0x8000000000000000#64 = -2 ^ 63 := by decide

/-- `s(b) - MIN` is at least `2^63` exactly when `b` is not negative (R102). -/
theorem subOverflow_min (b : Word) :
    subOverflow 0x8000000000000000#64 b = if 0 ≤ signedValue b then 1#64 else 0#64 := by
  have bounds := signedValue_bounds b
  rw [subOverflow, predicateWord_not_fits, signedValue_min]
  exact (if_congr (by omega) rfl rfl).trans (ite_not (0 ≤ signedValue b) 0#64 1#64)

/-- `MIN + s(b)` is below `MIN` exactly when `b` is negative (R101). -/
theorem addOverflow_min (b : Word) :
    addOverflow 0x8000000000000000#64 b = if 0 ≤ signedValue b then 0#64 else 1#64 := by
  have bounds := signedValue_bounds b
  rw [addOverflow, predicateWord_not_fits, signedValue_min]
  exact if_congr (by omega) rfl rfl

/-- R102's warning: `MIN` is its own negation, so the shortcut tests `MIN + s(b)` where the operation tests `s(b) - MIN`. -/
theorem addOverflow_neg_min_ne_subOverflow_min (b : Word) :
    addOverflow (-0x8000000000000000#64) b ≠ subOverflow 0x8000000000000000#64 b := by
  rw [show -0x8000000000000000#64 = 0x8000000000000000#64 by decide, addOverflow_min, subOverflow_min]
  split_ifs <;> decide

/-- The difference of two Words of the same sign is in range (R102). -/
theorem subOverflow_of_sign_eq {x y : Word} (h : sign x = sign y) : subOverflow x y = 0#64 := by
  have hx := signedValue_bounds x
  have hy := signedValue_bounds y
  rw [sign_eq_sign_iff] at h
  rw [subOverflow, predicateWord_not_fits_eq_zero_iff]
  omega

/-- The sum of two Words of different sign is in range (R101). -/
theorem addOverflow_of_sign_ne {x y : Word} (h : sign x ≠ sign y) : addOverflow x y = 0#64 := by
  have hx := signedValue_bounds x
  have hy := signedValue_bounds y
  rw [ne_eq, sign_eq_sign_iff] at h
  rw [addOverflow, predicateWord_not_fits_eq_zero_iff]
  omega

theorem addOverflow_zero (x : Word) : addOverflow x 0#64 = 0#64 := by
  rw [addOverflow, predicateWord_not_fits_eq_zero_iff, signedValue, signedValue, BitVec.toInt_zero, Int.add_zero]
  exact signedValue_bounds x

theorem subOverflow_zero (y : Word) : subOverflow 0#64 y = 0#64 := by
  rw [subOverflow, predicateWord_not_fits_eq_zero_iff, signedValue, signedValue, BitVec.toInt_zero, Int.sub_zero]
  exact signedValue_bounds y

/-- Settles O32: `op1 = MIN` by the sign of `op2`, and the operands whose signs, or a zero, keep the result in range. -/
theorem subOverflowIsNotNegateAndAdd : Obligations.SubOverflowIsNotNegateAndAdd :=
  ⟨fun b => ⟨subOverflow_min b, addOverflow_neg_min_ne_subOverflow_min b⟩,
    fun x y => ⟨subOverflow_of_sign_eq, addOverflow_of_sign_ne, addOverflow_zero x, subOverflow_zero y⟩⟩

end Sys2Proof.Machine

/-! ### Cross-word composition -/

namespace Sys2Proof.Machine

/-- The copy of a field in range, as the composition of R110. -/
theorem copyBits_of_valid (a b : Word) {sl dl n : Int} (vs : validRange sl (sl + n - 1))
    (vd : validRange dl (dl + n - 1)) :
    copyBits a b sl dl n = clearBits b dl (dl + n - 1) ||| shiftLeft (getBits a sl (sl + n - 1)) dl.toNat :=
  if_pos ⟨vs, vd⟩

/-- The fallback of an invalid derived range (R110). -/
theorem copyBits_of_invalid (a b : Word) {sl dl n : Int}
    (h : ¬(validRange sl (sl + n - 1) ∧ validRange dl (dl + n - 1))) : copyBits a b sl dl n = b :=
  if_neg h

/-- A derived range given by numbers that fit a Word is valid (R110). -/
theorem validRange_of_fits {low n : Nat} (hn : 1 ≤ n) (h : low + n ≤ 64) : validRange low (low + n - 1 : Int) := by
  simp only [validRange]; omega

/-- Settles O15: the two branches of the test on the derived ranges; a bit of the result is read from the source inside the
destination range and from the destination outside it. -/
theorem copyBitsCopiesTheFieldOrNothing : Obligations.CopyBitsCopiesTheFieldOrNothing := by
  refine ⟨fun a b i0 i1 i2 s => ⟨copyBits a b i0.toInt i1.toInt i2.toInt, exec_eq_result (.copyBits a b i0 i1 i2) s,
    fun sl dl n hsl hdl hlen hn hs hd => ?_, copyBits_of_invalid a b⟩, fun _ h => decode_copyBits h⟩
  rw [hsl, hdl, hlen]
  refine ⟨fun j hj => ?inside, fun k hk => ?outside,
    copyBits_of_valid a b (validRange_of_fits hn hs) (validRange_of_fits hn hd)⟩
  case inside => rw [copyBits_bit a b sl dl n _ hn hs hd, if_pos (by omega), Nat.add_sub_cancel_left]
  case outside => rw [copyBits_bit a b sl dl n k hn hs hd, if_neg (by omega)]

/-- Copying all 64 bits replaces the destination (R112). -/
theorem copyBits_full (a b : Word) : copyBits a b 0 0 64 = a :=
  BitVec.eq_of_getLsbD_eq fun k hk => by
    have bit := copyBits_bit a b 0 0 64 k (by decide) (by decide) (by decide)
    rw [if_pos (by omega), Nat.zero_add, Nat.sub_zero] at bit
    exact bit

/-- A field put back at its own position is the Word under the mask of the range (R112). -/
theorem shiftLeft_getBits (a : Word) {lo hi : Int} (v : validRange lo hi) :
    shiftLeft (getBits a lo hi) lo.toNat = a &&& mask lo.toNat hi.toNat := by
  obtain ⟨l, k, rfl, rfl, h, h63⟩ := validRange_cases v
  refine BitVec.eq_of_getLsbD_eq fun i h64 => ?_
  rw [shiftLeft, BitVec.getLsbD_shiftLeft, BitVec.getLsbD_and, Int.toNat_natCast, Int.toNat_natCast,
    getBits_bit a l k _ h h63, mask_bit l k i h h63]
  by_cases below : i < l
  · simp [below, Nat.not_le.mpr below]
  · have inField : i - l ≤ k - l ↔ i ≤ k := by omega
    simp [h64, below, Nat.le_of_not_lt below, inField, Bool.and_comm]

/-- A field of `n` ones moved to position `dl` is the mask of the destination range: nothing is shifted out (R110). -/
theorem shiftLeft_ones {v : Word} {dl n : Int} (ones : v.toNat = 2 ^ n.toNat - 1) (vd : validRange dl (dl + n - 1)) :
    shiftLeft v dl.toNat = mask dl.toNat (dl + n - 1).toNat := by
  have size : (2 ^ n.toNat - 1) * 2 ^ dl.toNat = 2 ^ ((dl + n - 1).toNat + 1) - 2 ^ dl.toNat := by
    rw [Nat.sub_mul, ← Nat.pow_add, Nat.one_mul, show n.toNat + dl.toNat = (dl + n - 1).toNat + 1 by omega]
  rw [shiftLeft, mask]
  exact BitVec.eq_of_toNat_eq (by rw [BitVec.toNat_shiftLeft, Nat.shiftLeft_eq, ones, size, BitVec.toNat_ofNat])

/-- A cleared range filled with ones is the set range (R91, R92). -/
theorem clearBits_or_mask (b : Word) {lo hi : Int} (v : validRange lo hi) :
    clearBits b lo hi ||| mask lo.toNat hi.toNat = setBits b lo hi := by
  rw [clearBits, setBits, if_pos v, if_pos v]
  ext k hk
  simp only [BitVec.getElem_or, BitVec.getElem_and, BitVec.getElem_not, Bool.or_and_distrib_right, Bool.not_or_self, Bool.and_true]

/-- Settles O30: the operands no derived range admits; the full width; equal positions; the two uniform fields, each put into
the cleared destination range. -/
theorem copyBitsCornerCases : Obligations.CopyBitsCornerCases := by
  refine fun a b sl dl n => ⟨fun h => ?fallback, ?full, fun v => ?multiplex, fun vs vd => ⟨fun zeros => ?clears,
    fun ones => ?sets⟩⟩
  case fallback => exact copyBits_of_invalid a b (by simp only [validRange]; omega)
  case full =>
    split
    · next zero => obtain ⟨rfl, rfl⟩ := zero; exact copyBits_full a b
    · next nonzero => exact copyBits_of_invalid a b (by simp only [validRange]; omega)
  case multiplex => rw [copyBits_of_valid a b v v, shiftLeft_getBits a v, clearBits, if_pos v]
  case clears => rw [copyBits_of_valid a b vs vd, zeros, shiftLeft, BitVec.zero_shiftLeft, BitVec.or_zero]
  case sets => rw [copyBits_of_valid a b vs vd, shiftLeft_ones ones vd, clearBits_or_mask b vd]

theorem indexValue_bounds (i : Idx) : -2 ^ 31 ≤ indexValue i ∧ indexValue i ≤ 2 ^ 31 - 1 :=
  ⟨BitVec.le_toInt i, Int.le_sub_one_of_lt (BitVec.toInt_lt (x := i))⟩

/-- The bounds of the exact high end, from those of the two ports (R111). -/
theorem derivedHigh_bounds (low length : Idx) :
    -2 ^ 32 - 1 ≤ derivedHigh (indexValue low) (indexValue length) ∧
    derivedHigh (indexValue low) (indexValue length) ≤ 2 ^ 32 - 3 := by
  have := indexValue_bounds low
  have := indexValue_bounds length
  rw [derivedHigh]
  omega

/-- The high end computed on 32 bits is the exact one, wrapped (R111). -/
theorem toInt_wrappedHigh (low length : Idx) :
    (low + length - 1#32).toInt = (derivedHigh low.toInt length.toInt).bmod (2 ^ 32) := by
  rw [BitVec.toInt_sub, BitVec.toInt_add, Int.bmod_sub_bmod]; rfl

/-- The argument of R111: for a low end inside the Word, a high end that the wrap changes is invalid before and after it. -/
theorem validRange_wrapped_iff (low : Int) {length : Int} (h : -2 ^ 31 ≤ length ∧ length ≤ 2 ^ 31 - 1) :
    validRange low (derivedHigh low length) ↔ validRange low ((derivedHigh low length).bmod (2 ^ 32)) := by
  by_cases unchanged : -2 ^ 31 ≤ derivedHigh low length ∧ derivedHigh low length < 2 ^ 31
  · rw [Int.bmod_eq_of_le (by omega) (by omega)]
  · have exact_invalid : ¬validRange low (derivedHigh low length) := by
      simp only [validRange, derivedHigh] at unchanged ⊢; omega
    have wrapped_invalid : ¬validRange low ((derivedHigh low length).bmod (2 ^ 32)) := by
      simp only [validRange, derivedHigh, Int.bmod_def] at unchanged ⊢; omega
    exact iff_of_false exact_invalid wrapped_invalid

/-- Settles O31: the bounds of the exact end, and the wrapped end in the argument of R111. -/
theorem derivedEndWrapIsUnobservable : Obligations.DerivedEndWrapIsUnobservable := by
  intro low length
  obtain ⟨lower, upper⟩ := derivedHigh_bounds low length
  rw [toInt_wrappedHigh]
  exact ⟨lower, upper, validRange_wrapped_iff low.toInt (indexValue_bounds length)⟩

end Sys2Proof.Machine

/-! ### The laws of 44_laws.md -/

namespace Sys2Proof.Machine

/-! #### Setting, clearing and reading a valid range, in terms of its mask -/

/-- The set range of a Word (R91). -/
theorem setBits_of_valid (w : Word) {lo hi : Int} (v : validRange lo hi) :
    setBits w lo hi = w ||| mask lo.toNat hi.toNat :=
  if_pos v

/-- The cleared range of a Word (R92). -/
theorem clearBits_of_valid (w : Word) {lo hi : Int} (v : validRange lo hi) :
    clearBits w lo hi = w &&& ~~~mask lo.toNat hi.toNat :=
  if_pos v

/-- Reading a range depends only on the bits under its mask (R90). -/
theorem getBits_congr {x y : Word} {lo hi : Int} (v : validRange lo hi)
    (same : x &&& mask lo.toNat hi.toNat = y &&& mask lo.toNat hi.toNat) : getBits x lo hi = getBits y lo hi := by
  obtain ⟨l, k, rfl, rfl, h, h63⟩ := validRange_cases v
  refine BitVec.eq_of_getLsbD_eq fun j _ => ?_
  rw [getBits_bit x l k j h h63, getBits_bit y l k j h h63]
  by_cases hj : j ≤ k - l
  · have inMask : (mask l k).getLsbD (l + j) = true := by
      rw [mask_bit l k _ h h63, decide_eq_true (Nat.le_add_right l j), decide_eq_true (by omega), Bool.and_self]
    have bit := congrArg (BitVec.getLsbD · (l + j)) same
    simp only [Int.toNat_natCast, BitVec.getLsbD_and, inMask, Bool.and_true] at bit
    rw [bit]
  · rw [decide_eq_false hj, Bool.false_and, Bool.false_and]

theorem setBits_and_mask (w : Word) {lo hi : Int} (v : validRange lo hi) :
    setBits w lo hi &&& mask lo.toNat hi.toNat = mask lo.toNat hi.toNat := by
  rw [setBits_of_valid w v]
  ext k hk
  rw [BitVec.getElem_and, BitVec.getElem_or]
  exact inf_eq_right.mpr le_sup_right

theorem clearBits_and_mask (w : Word) {lo hi : Int} (v : validRange lo hi) :
    clearBits w lo hi &&& mask lo.toNat hi.toNat = 0#64 := by
  rw [clearBits_of_valid w v, BitVec.and_assoc, BitVec.and_comm (~~~_), BitVec.and_not_self]
  exact BitVec.and_zero

/-- Outside the range the set Word is the Word (R122). -/
theorem setBits_and_not_mask (w : Word) {lo hi : Int} (v : validRange lo hi) :
    setBits w lo hi &&& ~~~mask lo.toNat hi.toNat = w &&& ~~~mask lo.toNat hi.toNat := by
  rw [setBits_of_valid w v]
  ext k hk
  simp only [BitVec.getElem_and, BitVec.getElem_or, BitVec.getElem_not, Bool.and_or_distrib_right, Bool.and_not_self,
    Bool.or_false]

/-- Outside the range the cleared Word is the Word (R122). -/
theorem clearBits_and_not_mask (w : Word) {lo hi : Int} (v : validRange lo hi) :
    clearBits w lo hi &&& ~~~mask lo.toNat hi.toNat = w &&& ~~~mask lo.toNat hi.toNat := by
  rw [clearBits_of_valid w v, BitVec.and_assoc, BitVec.and_self]

/-- Clearing a range forgets that it was set. -/
theorem clearBits_setBits (w : Word) {lo hi : Int} (v : validRange lo hi) :
    clearBits (setBits w lo hi) lo hi = clearBits w lo hi := by
  rw [clearBits_of_valid _ v, clearBits_of_valid w v, setBits_and_not_mask w v]

/-- Setting a range forgets that it was cleared. -/
theorem setBits_clearBits (w : Word) {lo hi : Int} (v : validRange lo hi) :
    setBits (clearBits w lo hi) lo hi = setBits w lo hi := by
  rw [setBits_of_valid _ v, clearBits_or_mask w v]

/-- A set range stays set, and an invalid range changes nothing twice (R125). -/
theorem setBits_setBits (w : Word) (lo hi : Int) : setBits (setBits w lo hi) lo hi = setBits w lo hi := by
  by_cases v : validRange lo hi
  · rw [setBits_of_valid _ v, setBits_of_valid w v, BitVec.or_assoc, BitVec.or_self]
  · rw [setBits_of_invalid _ v]

/-- A cleared range stays cleared, and an invalid range changes nothing twice (R125). -/
theorem clearBits_clearBits (w : Word) (lo hi : Int) : clearBits (clearBits w lo hi) lo hi = clearBits w lo hi := by
  by_cases v : validRange lo hi
  · rw [clearBits_of_valid _ v, clearBits_and_not_mask w v, clearBits_of_valid w v]
  · rw [clearBits_of_invalid _ v]

/-- The field of a mask at its own range is all ones, as many as the range is wide. -/
theorem getBits_mask {lo hi : Int} (v : validRange lo hi) :
    (getBits (mask lo.toNat hi.toNat) lo hi).toNat = 2 ^ (hi - lo + 1).toNat - 1 := by
  obtain ⟨l, k, rfl, rfl, h, h63⟩ := validRange_cases v
  have width : ((k : Int) - l + 1).toNat = k - l + 1 := by omega
  have value : 2 ^ (k + 1) - 2 ^ l = 2 ^ l * (2 ^ (k - l + 1) - 1) := by
    rw [Nat.mul_sub, ← Nat.pow_add, Nat.mul_one, show l + (k - l + 1) = k + 1 by omega]
  rw [Int.toNat_natCast, Int.toNat_natCast, getBits_value _ l k h h63, mask_toNat l k h63, width, value,
    Nat.mul_div_cancel_left _ (Nat.two_pow_pos l)]
  exact Nat.mod_eq_of_lt (Nat.sub_lt (Nat.two_pow_pos _) Nat.one_pos)

/-- Every field of `word(0)` is zero. -/
theorem getBits_zero {lo hi : Int} (v : validRange lo hi) : getBits 0#64 lo hi = 0#64 := by
  obtain ⟨l, k, rfl, rfl, h, h63⟩ := validRange_cases v
  exact BitVec.eq_of_getLsbD_eq fun j _ => by
    rw [getBits_bit _ l k j h h63, BitVec.getLsbD_zero, BitVec.getLsbD_zero, Bool.and_false]

/-- Reading all 64 bits is the Word (R128). -/
theorem getBits_full (w : Word) : getBits w 0 63 = w :=
  BitVec.eq_of_toNat_eq <| calc (getBits w 0 63).toNat
      = w.toNat / 2 ^ 0 % 2 ^ 64 := getBits_value w 0 63 (by decide) (by decide)
    _ = w.toNat := by rw [Nat.pow_zero, Nat.div_one, Nat.mod_eq_of_lt w.isLt]

/-- Reading one bit is the predicate "the bit is set" (R90, R71). -/
theorem getBits_single (w : Word) (k : Nat) (h63 : k ≤ 63) : getBits w k k = predicateWord (w.getLsbD k) :=
  BitVec.eq_of_getLsbD_eq fun j _ => by
    rw [getBits_bit w k k j le_rfl h63, predicateWord, zext64_getLsbD _ (by decide), BitVec.getLsbD_ofBool, Nat.sub_self]
    by_cases hj : j = 0
    · subst hj; rfl
    · simp [hj]

/-- Settles O21: a set range has the bits of the mask under the mask, and the mask's field is all ones. -/
theorem setThenReadGivesAllOnes : Obligations.SetThenReadGivesAllOnes := by
  intro w lo hi v
  have field : getBits (setBits w lo hi) lo hi = getBits (mask lo.toNat hi.toNat) lo hi :=
    getBits_congr v (by rw [setBits_and_mask w v, BitVec.and_self])
  rw [field, getBits_mask v]

/-- Settles O22: a cleared range has the bits of `word(0)` under the mask. -/
theorem clearThenReadGivesZero : Obligations.ClearThenReadGivesZero := by
  intro w lo hi v
  have field : getBits (clearBits w lo hi) lo hi = getBits 0#64 lo hi :=
    getBits_congr v (by rw [clearBits_and_mask w v, BitVec.zero_and])
  rw [field, getBits_zero v]

/-- Settles O23: outside the mask, an OR with it and an AND with its complement change nothing. -/
theorem bitsOutsideTheRangeAreUntouched : Obligations.BitsOutsideTheRangeAreUntouched := fun w _ _ v =>
  ⟨(setBits_and_not_mask w v).symm, (clearBits_and_not_mask w v).symm⟩

/-- Settles O24: 64 bits from another position than 0 would leave the Word. -/
theorem identityCopyAtPositionZeroOnly : Obligations.IdentityCopyAtPositionZeroOnly := fun s d =>
  ⟨copyBits_full s d, fun l nonzero => copyBits_of_invalid s d (by simp only [validRange]; omega)⟩

/-- Settles O25: both are the predicate of bit 63. -/
theorem signIsTheExtractOfBit63 : Obligations.SignIsTheExtractOfBit63 := fun w =>
  (getBits_single w 63 le_rfl).symm

/-- Settles O26: a byte operation is the range operation at the byte's ends (R83). -/
theorem setAndClearAreIdempotent : Obligations.SetAndClearAreIdempotent :=
  ⟨fun w lo hi => ⟨setBits_setBits w lo hi, clearBits_clearBits w lo hi⟩, fun w n => by
    rw [setByte_eq_setBits, setByte_eq_setBits, setBits_setBits]⟩

/-- Settles O28: the bound on a field, and the absorption laws of a Word with the mask of the range. -/
theorem rangeOperationsAbsorbEachOther : Obligations.RangeOperationsAbsorbEachOther := fun w _ _ v =>
  ⟨Nat.le_sub_one_of_lt (getBits_lt w v), getBits_full w, setBits_and_mask w v, clearBits_and_mask w v,
    (setBits_of_valid 0#64 v).trans BitVec.zero_or, clearBits_setBits w v, setBits_clearBits w v⟩

/-! #### The copied field -/

/-- A valid derived range is one of numbers that fit a Word: the converse of `validRange_of_fits` for two fields of one
length. -/
theorem derivedRanges_cases {sl dl n : Int} (vs : validRange sl (sl + n - 1)) (vd : validRange dl (dl + n - 1)) :
    ∃ s d m : Nat, sl = s ∧ dl = d ∧ n = m ∧ 1 ≤ m ∧ s + m ≤ 64 ∧ d + m ≤ 64 := by
  simp only [validRange] at vs vd
  exact ⟨sl.toNat, dl.toNat, n.toNat, by omega, by omega, by omega, by omega, by omega, by omega⟩

/-- The destination's field after a copy is the source's field (R128). -/
theorem getBits_copyBits (a b : Word) {sl dl n : Int} (vs : validRange sl (sl + n - 1))
    (vd : validRange dl (dl + n - 1)) :
    getBits (copyBits a b sl dl n) dl (dl + n - 1) = getBits a sl (sl + n - 1) := by
  obtain ⟨s, d, m, rfl, rfl, rfl, hm, hs, hd⟩ := derivedRanges_cases vs vd
  have highS : (s + m - 1 : Int) = (s + m - 1 : Nat) := by omega
  have highD : (d + m - 1 : Int) = (d + m - 1 : Nat) := by omega
  refine BitVec.eq_of_getLsbD_eq fun j _ => ?_
  rw [highS, highD, getBits_bit _ d _ j (by omega) (by omega), getBits_bit a s _ j (by omega) (by omega),
    show d + m - 1 - d = m - 1 by omega, show s + m - 1 - s = m - 1 by omega]
  by_cases hj : j ≤ m - 1
  · rw [copyBits_bit a b s d m _ hm hs hd, if_pos (by omega), Nat.add_sub_cancel_left]
  · rw [decide_eq_false hj, Bool.false_and, Bool.false_and]

/-- Outside the destination range a copy leaves the destination (R128). -/
theorem copyBits_and_not_mask (a b : Word) {sl dl n : Int} (vs : validRange sl (sl + n - 1))
    (vd : validRange dl (dl + n - 1)) :
    copyBits a b sl dl n &&& ~~~mask dl.toNat (dl + n - 1).toNat = b &&& ~~~mask dl.toNat (dl + n - 1).toNat := by
  obtain ⟨s, d, m, rfl, rfl, rfl, hm, hs, hd⟩ := derivedRanges_cases vs vd
  refine BitVec.eq_of_getLsbD_eq fun k _ => ?_
  rw [show (d + m - 1 : Int).toNat = d + m - 1 by omega, Int.toNat_natCast, BitVec.getLsbD_and, BitVec.getLsbD_and,
    BitVec.getLsbD_not, mask_bit d _ k (by omega) (by omega), copyBits_bit a b s d m k hm hs hd]
  by_cases inside : d ≤ k ∧ k < d + m
  · simp [inside, show k ≤ d + m - 1 by omega]
  · rw [if_neg inside]

/-- Copying a field of a Word onto itself puts the masked bits back into the Word they came from (R128). -/
theorem copyBits_self (a : Word) {lo n : Int} (v : validRange lo (lo + n - 1)) : copyBits a a lo lo n = a := by
  rw [copyBits_of_valid a a v v, shiftLeft_getBits a v, clearBits_of_valid a v]
  ext k hk
  simp only [BitVec.getElem_or, BitVec.getElem_and, BitVec.getElem_not, ← Bool.and_or_distrib_left, Bool.not_or_self,
    Bool.and_true]

/-- Settles O29: the destination's field, the rest of the destination, and the copy of a Word's field onto itself. -/
theorem copiedFieldReadsBack : Obligations.CopiedFieldReadsBack := fun s d _ _ _ vs vd =>
  ⟨getBits_copyBits s d vs vd, copyBits_and_not_mask s d vs vd, copyBits_self s vs⟩

/-! #### Totality -/

/-- Settles O34: the outputs `result i` are chosen from the instruction alone, and `exec` answers with them in every state. -/
theorem everyInstructionIsTotalAndPure : Obligations.EveryInstructionIsTotalAndPure := fun i =>
  ⟨result i, exec_eq_result i⟩

end Sys2Proof.Machine

/-! ### The fallback policies -/

namespace Sys2Proof.Machine

/-- A state whose ports decode to `i` carries the outputs of `i` on the output ports and answers them (R26, R28). -/
theorem answers_of_decode {s : State} {i : Instr} (h : decode s.ports = i) : Answers s (result i) := by
  have out : s.output = result i := by rw [← h, result_decode, State.output]
  exact out ▸ answers_output s

/-- An assigned operation whose value is its fallback answers the fallback with `ill = 0` (R66, R143). -/
theorem answers_of_decode_of_value {s : State} {i : Instr} {v w : Word} (h : decode s.ports = i)
    (meaning : result i = ⟨v, 0#1⟩) (value : v = w) : Answers s ⟨w, 0#1⟩ :=
  value ▸ meaning ▸ answers_of_decode h

/-- Settles O17: each select value decodes to its operation, and the operation's value outside its range is the fallback of
R141 (zero) or of R142 (the port that would be modified). -/
theorem fallbackPoliciesAreSilentAndDistinct : Obligations.FallbackPoliciesAreSilentAndDistinct := by
  intro s
  refine ⟨fun h invalid => ?getByte, fun h invalid => ?setByte, fun h invalid => ?getBits, fun h invalid => ?ranges,
    fun h invalid => ?copyBits⟩
  case getByte => exact answers_of_decode_of_value (decode_getByte h) rfl (getByte_of_invalid _ invalid)
  case setByte => exact answers_of_decode_of_value (decode_setByte h) rfl (setByte_of_invalid _ invalid)
  case getBits => exact answers_of_decode_of_value (decode_getBits h) rfl (getBits_of_invalid _ invalid)
  case ranges =>
    rcases h with h | h
    · exact answers_of_decode_of_value (decode_setBits h) rfl (setBits_of_invalid _ invalid)
    · exact answers_of_decode_of_value (decode_clearBits h) rfl (clearBits_of_invalid _ invalid)
  case copyBits => exact answers_of_decode_of_value (decode_copyBits h) rfl (copyBits_of_invalid _ _ invalid)

end Sys2Proof.Machine
